-- ==== Sys2Proof/Word.lean ====
section
/-!
DEFINITION. The bit-vector types of the engine (00_scope.md R5, R6, R7) and the names of the four
operations (30_encoding.md R40). Bit 0 is the least significant bit of every value (R7), and no
operation reads a value as signed (R6).
-/

namespace Sys2Proof

/-- One bit: a lookup-table entry or a one-bit status register (R5 `LUT_ENTRY_WIDTH`, R13). -/
abbrev Bit := BitVec 1

/-- The 8-bit result and response (R5 `W_RES`). -/
abbrev Byte := BitVec 8

/-- A 16-bit subword, which is also a lookup-table address (R5 `W_SUB`, R27). -/
abbrev Subword := BitVec 16

/-- The operand `COUNTBITS` counts (R5 `W_CNT`). -/
abbrev Word32 := BitVec 32

/-- The command's operand field and the operand of the parity commands (R5 `W_OPERAND`, `W_PAR`). -/
abbrev Word64 := BitVec 64

/-- The command's operation field (R5 `W_OP`). -/
abbrev OpBits := BitVec 2

/-- A whole command `CMD[65:0]` (R38). -/
abbrev CmdWord := BitVec 66

/-- The hidden table-build index (R13 `BUILD_IDX`). -/
abbrev BuildIdx := BitVec 17

/-- The four operations the `OP` field selects, in the order of R40. -/
inductive Op where
  /-- `OP = 0b00`, the source's `countBits`. -/
  | countbits
  /-- `OP = 0b01`, the source's `parity`. -/
  | parity
  /-- `OP = 0b10`, the source's `parityCached`. -/
  | parityCached
  /-- `OP = 0b11`, the source's `parityXorFold`. -/
  | parityXorfold
  deriving DecidableEq, Repr

end Sys2Proof
end

