-- ==== Sys2Proof/Syntax.lean ====
section
/-!
DEFINITION. The commands of the engine, one constructor for each row of opcode_table.json
(30_encoding.md R40). A command carries its whole 64-bit `OPERAND` (R38), so that nothing of the
command word is lost; which of its bits a command reads is said by its meaning (R41, R42). There
are no other operand forms (R44) and no aliases (R47).
-/

namespace Sys2Proof

/-- A decoded command. The source's function names are those of R12. -/
inductive Instr where
  /-- `COUNTBITS` (R49), the source's `countBits`. -/
  | countbits (operand : Word64)
  /-- `PARITY` (R53), the source's `parity`. -/
  | parity (operand : Word64)
  /-- `PARITY.CACHED` (R54), the source's `parityCached`. -/
  | parityCached (operand : Word64)
  /-- `PARITY.XORFOLD` (R56), the source's `parityXorFold`. -/
  | parityXorfold (operand : Word64)
  deriving DecidableEq, Repr

/-- The operation a command selects. -/
def Instr.op : Instr → Op
  | .countbits _ => .countbits
  | .parity _ => .parity
  | .parityCached _ => .parityCached
  | .parityXorfold _ => .parityXorfold

/-- The command's `OPERAND` field, all 64 bits of it. -/
def Instr.operand : Instr → Word64
  | .countbits x => x
  | .parity x => x
  | .parityCached x => x
  | .parityXorfold x => x

/-- The command that applies operation `op` to `OPERAND = x`. -/
def Instr.ofOp (op : Op) (x : Word64) : Instr :=
  match op with
  | .countbits => .countbits x
  | .parity => .parity x
  | .parityCached => .parityCached x
  | .parityXorfold => .parityXorfold x

end Sys2Proof
end

