-- ==== Sys2Proof/Decode.lean ====
section
/-!
DEFINITION. Command words and commands: the decoder, the encoder and the opcode table's rows
(30_encoding.md section 1). There is one format, `CMD66`, of one length (R38, R39), and `OP` alone
selects the operation (R40). Every 66-bit word is a command (R43); the only thing a decoder can
refuse is a number that is no 66-bit word.
-/

namespace Sys2Proof

/-- The `OP` field of a command word, `CMD[65:64]` (R38). -/
def opField (w : CmdWord) : OpBits := w.extractLsb' 64 2

/-- The `OPERAND` field of a command word, `CMD[63:0]` (R38). -/
def operandField (w : CmdWord) : Word64 := w.extractLsb' 0 64

/-- The operation each value of the `OP` field selects (R40). -/
def Op.ofBits (b : OpBits) : Op :=
  if b = 0b00#2 then .countbits
  else if b = 0b01#2 then .parity
  else if b = 0b10#2 then .parityCached
  else .parityXorfold

/-- The value of the `OP` field that selects each operation (R40). -/
def Op.bits : Op → OpBits
  | .countbits => 0b00#2
  | .parity => 0b01#2
  | .parityCached => 0b10#2
  | .parityXorfold => 0b11#2

/-- The command a 66-bit word stands for; every word is one (R43). -/
def decode (w : CmdWord) : Instr := Instr.ofOp (Op.ofBits (opField w)) (operandField w)

/-- The only way a number can fail to be a command. -/
inductive DecodeError where
  /-- The number needs more than 66 bits, so it is no command word (R38, R39). Safe: the engine
  takes 66-bit words and nothing else. -/
  | wordTooWide
  deriving DecidableEq, Repr

/-- The command a number stands for, written as R38 writes it (`OP * 2^64 + OPERAND`). -/
def decodeNumber (n : Nat) : Except DecodeError Instr :=
  if n < 2 ^ 66 then .ok (decode (BitVec.ofNat 66 n)) else .error .wordTooWide

/-- The instruction the decoder reads from an instruction whose bits are `w`, numbered as
opcode_table.json numbers them, which is R38's own numbering. The engine has no memory of
instructions and so no byte order (R30): the bits are taken as they are numbered. `_nbits` says
how many bits the table gives the row; there is one length (R39), so nothing depends on it. -/
def decodeTableWord (_nbits w : Nat) : Option Instr :=
  match decodeNumber w with
  | .ok i => some i
  | .error .wordTooWide => none

/-- The word of a command, `{OP, OPERAND}` (R38). -/
def encode (i : Instr) : CmdWord := i.op.bits ++ i.operand

/-- One row of opcode_table.json: `match` and `mask` over `CMD[65:0]` (R40). -/
structure OpcodeRow where
  op : Op
  matchBits : CmdWord
  maskBits : CmdWord
  deriving DecidableEq, Repr

/-- The rows of opcode_table.json, in its order. -/
def opcodeTable : List OpcodeRow :=
  [⟨.countbits, 0x00000000000000000#66, 0x30000000000000000#66⟩,
   ⟨.parity, 0x10000000000000000#66, 0x30000000000000000#66⟩,
   ⟨.parityCached, 0x20000000000000000#66, 0x30000000000000000#66⟩,
   ⟨.parityXorfold, 0x30000000000000000#66, 0x30000000000000000#66⟩]

/-- A word belongs to a row when its masked bits are the row's. -/
def OpcodeRow.matchesWord (r : OpcodeRow) (w : CmdWord) : Bool :=
  decide (w &&& r.maskBits = r.matchBits)

end Sys2Proof
end

