-- ==== Sys2Proof/Config.lean ====
section
/-!
DEFINITION. What an implementation of the engine fixes: the parameters of 00_scope.md R5 and the
one free value, the contents of a table entry the build has not written yet (10_state.md R13).
-/

namespace Sys2Proof

/-- The build-time parameter `LUT_IMPL` (R5): how the lookup table exists in the hardware. -/
inductive LutImpl where
  /-- The table is a ROM, fixed at manufacture and ready at reset (R77). -/
  | rom
  /-- The table is built by the engine after each reset (R79). -/
  | builtAtReset
  deriving DecidableEq, Repr

namespace Config

/-- `LUT_IMPL` of the machine after `State.reset`: the default R5 names. -/
def lutImplDefault : LutImpl := .rom

/-- `LUT_ENTRIES` (R5): the number of entries of the lookup table. -/
abbrev lutEntries : Nat := 65536

/-- `FOLD_SHIFTS` (R5): the shifts of the six folds, in order. -/
def foldShifts : List Nat := [32, 16, 8, 4, 2, 1]

/-- FREE VALUE (notes/assumptions/3.md): what entry `a` of the table holds, under
`LUT_IMPL = BUILT_AT_RESET`, after the `draw`-th reset and before the build writes it. R13 calls it
unspecified. It has no body, so nothing can be proved of its value. -/
opaque freeLutEntry : (draw : Nat) → (a : Nat) → Bit

end Config

end Sys2Proof
end

