-- ==== Sys2Proof/Machine/Bits.lean ====
section
/-!
DEFINITION. The bit operators of 00_scope.md R8 and the loops of the commands' pseudocode
(40_popcount.md R49, 41_parity.md R53, R56). Each `while` loop is a structural recursion on a number
of passes; the width of the value is enough passes for every value (R51). Every right shift is
logical (70_reset_and_hazards.md R84): `>>>` on bit vectors fills with 0.
-/

namespace Sys2Proof.Machine

/-- `popcount(v)`: the number of bits of `v` equal to 1 (R8). -/
def popcount {n : Nat} (v : BitVec n) : Nat := (List.range n).countP fun i => v.getLsbD i

/-- `par(v)`: `popcount(v) mod 2`, one bit (R8). -/
def par {n : Nat} (v : BitVec n) : Bit := BitVec.ofNat 1 (popcount v % 2)

/-- `zext_8` of a one-bit parity, the value every parity command writes (R19). -/
def parityByte (p : Bit) : Byte := p.setWidth 8

/-- The loop of R49 with at most `passes` passes: `x` is the remaining value, `c` the count. -/
def countLoop : (passes : Nat) → (x : Word32) → (c : Nat) → Nat
  | 0, _, c => c
  | n + 1, x, c => if x = 0#32 then c else countLoop n (x >>> (1 : Nat)) (c + (x &&& 1#32).toNat)

/-- The count `COUNTBITS` computes (R49): at most 32 passes (R51). -/
def countBits (x : Word32) : Nat := countLoop 32 x 0

/-- The loop of R53 with at most `passes` passes: `x` is the remaining value, `p` the parity. -/
def parityLoop : (passes : Nat) → (x : Word64) → (p : Bit) → Bit
  | 0, _, p => p
  | n + 1, x, p =>
    if x = 0#64 then p
    else parityLoop n (x >>> (1 : Nat)) (p ^^^ (x &&& 1#64).extractLsb' 0 1)

/-- The parity `PARITY` computes (R53): at most 64 passes. -/
def serialParity (x : Word64) : Bit := parityLoop 64 x 0#1

/-- One fold of R56. -/
def foldStep (y : Word64) (s : Nat) : Word64 := y ^^^ (y >>> s)

/-- `y_j` of R57: the value after the first `j` folds. -/
def foldPrefix (j : Nat) (x : Word64) : Word64 := (Config.foldShifts.take j).foldl foldStep x

/-- The parity `PARITY.XORFOLD` computes (R56): bit 0 after the six folds. -/
def foldParity (x : Word64) : Bit :=
  ((Config.foldShifts.foldl foldStep x) &&& 1#64).extractLsb' 0 1

/-- How many passes the `while x != 0` loop of R49 or R53 makes, counting at most `fuel`
(70_reset_and_hazards.md R85, non-normative: no state and no outcome depends on it). -/
def loopPasses {n : Nat} : (fuel : Nat) → (x : BitVec n) → Nat
  | 0, _ => 0
  | k + 1, x => if x = 0#n then 0 else loopPasses k (x >>> (1 : Nat)) + 1

end Sys2Proof.Machine
end

