-- ==== Sys2Proof/Machine/State.lean ====
section
/-!
DEFINITION. The machine's state, its (absent) faults, and the state after reset. The first five
fields after the parameter are the engine's complete state (10_state.md R13); what follows is the
command interface and the hosts (20_memory.md R33, 30_encoding.md R48, 10_state.md R15), which are
not state of the engine but of what stands around it.
-/

namespace Sys2Proof.Machine

/-- The lookup table's listed entries: pairs of an address and the entry's bit, in the canonical
form of `Memory.wf`. What an unlisted address reads as is `Memory.unlisted`. -/
abbrev Memory := List (Nat × Bit)

/-- What a host can read of the engine (R22). -/
inductive HostReg where
  /-- The 8-bit register `RESULT` (R19). -/
  | result
  /-- The 1-bit register `RESULT_VALID` (R20). -/
  | resultValid
  /-- The 1-bit level `LUT_READY` (R16). -/
  | lutReady
  deriving DecidableEq, Repr

/-- A command a host has issued and the engine has not completed (R33), held ones included
(60_exceptions.md R69). -/
structure Pending where
  /-- The host that issued it, to which its response goes (R48). -/
  host : Nat
  /-- The command word. -/
  word : CmdWord
  deriving DecidableEq, Repr

/-- A response the engine has returned (R48). -/
structure Response where
  /-- The host that issued the command. -/
  host : Nat
  /-- The 8-bit value. -/
  value : Byte
  deriving DecidableEq, Repr

/-- One host: its program and where it stands in it (R15). -/
structure HostPort where
  /-- The commands the host issues, in order (R15). -/
  program : List CmdWord
  /-- The index in `program` of the next command to issue for the first time. -/
  issued : Nat
  /-- R15's `cpos`: how many of the host's commands have completed. -/
  cpos : Nat
  /-- The commands a reset discarded and the host has not issued again (R76), oldest first. -/
  discarded : List CmdWord
  /-- What the host has read of the engine, oldest first (R22). -/
  reads : List (HostReg × Byte)
  deriving DecidableEq, Repr

/-- Which agent moves (R67, 70_reset_and_hazards.md R79): a host, the engine, the table build, or
reset from outside. -/
inductive Move where
  /-- Host `h` issues the next command of its program (R33). -/
  | issue (h : Nat)
  /-- Host `h` issues again the oldest command a reset discarded (R76). -/
  | reissue (h : Nat)
  /-- Host `h` reads a register (R22, R82). -/
  | read (h : Nat) (r : HostReg)
  /-- The engine performs the oldest issued command, if it may (R33, R69). -/
  | engine
  /-- The table build takes its step (R79). -/
  | build
  /-- Reset is taken, between commands (R76). -/
  | reset
  deriving DecidableEq, Repr

/-- The state of the machine. -/
structure State where
  /-- The parameter `LUT_IMPL` (R5); no step changes it (R22: not a register). -/
  lutImpl : LutImpl
  /-- `LUT[0..65535]` (R17): the listed entries. -/
  lut : Memory
  /-- `LUT_READY` (R16). -/
  lutReady : Bit
  /-- `BUILD_IDX` (R23), hidden. -/
  buildIdx : BuildIdx
  /-- `RESULT` (R19). -/
  result : Byte
  /-- `RESULT_VALID` (R20). -/
  resultValid : Bit
  /-- The model's own counter of resets of a built table, to which the free value
  `Config.freeLutEntry` is applied (notes/assumptions/3.md). -/
  lutDraw : Nat
  /-- The issued commands that have not completed, in issue order (R33). -/
  pending : List Pending
  /-- The responses returned, in completion order (R48, R86). -/
  responses : List Response
  /-- The hosts that share the engine (R73). -/
  hosts : List HostPort
  /-- The agents' next moves; when none is left, the engine and the table build go on by
  themselves (R80, notes/assumptions/6.md). -/
  schedule : List Move
  deriving DecidableEq, Repr

/-- The engine has no faults: no exceptions, no error responses, no illegal command, and every
command completes with a value for every operand (60_exceptions.md R63, R64, R68, R70). So this
type has no constructor; nothing raises a fault. -/
inductive Fault where
  deriving DecidableEq, Repr

/-- Why the model has no meaning for a command. -/
inductive Refusal where
  /-- Raised by an arm of `exec` whose command has no meaning yet; at present no arm does. Safe:
  the machine stops where the hardware goes on. -/
  | notModelled (mnemonic : String)
  deriving DecidableEq, Repr

/-- A host with an empty program that has issued nothing (R15: `cpos` starts at 0). -/
def HostPort.fresh : HostPort :=
  { program := [], issued := 0, cpos := 0, discarded := [], reads := [] }

/-- The machine right after reset, for each `LUT_IMPL` (R13, R74): one host, with an empty program,
and nothing issued. -/
def State.resetFor (impl : LutImpl) : State :=
  { lutImpl := impl
    lut := []
    lutReady := match impl with | .rom => 1#1 | .builtAtReset => 0#1
    buildIdx := match impl with | .rom => 65536#17 | .builtAtReset => 0#17
    result := 0x00#8
    resultValid := 0#1
    lutDraw := 0
    pending := []
    responses := []
    hosts := [HostPort.fresh]
    schedule := [] }

/-- The machine right after reset with the default `LUT_IMPL = ROM` (R5). -/
def State.reset : State := State.resetFor Config.lutImplDefault

end Sys2Proof.Machine
end

