-- ==== Sys2Proof/Machine/Memory.lean ====
section
/-!
DEFINITION. The engine's one address space, the lookup table (20_memory.md R26, R27): 65,536 entries
of one bit. It is held as the list of the entries that differ from what an unlisted address reads
as, at strictly rising addresses.
-/

namespace Sys2Proof.Machine

namespace Memory

/-- What an address that is not listed reads as. Under `ROM`, the contents fixed at manufacture,
`par(a)` (10_state.md R18, R77). Under `BUILT_AT_RESET` no value: the entry is unspecified until the
build writes it (R13, R74). -/
def unlisted (impl : LutImpl) (a : Nat) : Option Bit :=
  match impl with
  | .rom => some (par (BitVec.ofNat 16 a))
  | .builtAtReset => none

/-- The entry at address `a`, if it has a value. -/
def read (impl : LutImpl) : (m : Memory) → (a : Nat) → Option Bit
  | [], a => unlisted impl a
  | (b, v) :: m, a => if a = b then some v else read impl m a

/-- List the entry `v` at address `a`, in place of the one listed there, if any. -/
def insert : (m : Memory) → (a : Nat) → (v : Bit) → Memory
  | [], a, v => [(a, v)]
  | (b, w) :: m, a, v =>
    if a < b then (a, v) :: (b, w) :: m
    else if a = b then (a, v) :: m
    else (b, w) :: insert m a v

/-- Take the entry at address `a` off the list. -/
def erase (m : Memory) (a : Nat) : Memory := m.filter fun e => decide (e.1 ≠ a)

/-- The table with entry `a` set to `v`, in canonical form. -/
def write (impl : LutImpl) (m : Memory) (a : Nat) (v : Bit) : Memory :=
  if unlisted impl a = some v then erase m a else insert m a v

/-- The canonical form: strictly rising addresses, all of the 65,536 that exist (R27), and no entry
equal to what its address reads as unlisted. -/
abbrev wf (impl : LutImpl) (m : Memory) : Prop :=
  m.Pairwise (fun e f => e.1 < f.1) ∧
    ∀ e ∈ m, e.1 < Config.lutEntries ∧ unlisted impl e.1 ≠ some e.2

end Memory

/-- `MemRead(a, 1)` (R28). It changes nothing. An entry the build has not written is a free value
(notes/assumptions/3.md); no command reads one while R28's precondition `LUT_READY = 1` and the
content invariant of R18 hold. -/
def State.memRead (s : State) (a : Subword) : Bit :=
  (s.lut.read s.lutImpl a.toNat).getD (Config.freeLutEntry s.lutDraw a.toNat)

/-- `MemWrite(a, 1, v)` (R29): sets `LUT[a]` and nothing else. Only the table build performs it. -/
def State.memWrite (s : State) (a : Subword) (v : Bit) : State :=
  { s with lut := s.lut.write s.lutImpl a.toNat v }

end Sys2Proof.Machine
end

