-- ==== Sys2Proof/Machine/Ops.lean ====
section
/-!
DEFINITION. The operations the commands share: completing with a value, and waiting. The engine
takes no exception and returns from none (60_exceptions.md R63, R66, R68), so there is no operation
for either: no state is saved, no mode changes and there is no vector.
-/

namespace Sys2Proof.Machine

/-- The host's `cpos` advances by 1 (10_state.md R15). -/
def HostPort.advance (p : HostPort) : HostPort := { p with cpos := p.cpos + 1 }

/-- `RESULT <- v; RESULT_VALID <- 1` (00_scope.md R9). -/
def State.setResult (v : Byte) (s : State) : State := { s with result := v, resultValid := 1#1 }

/-- `respond v` (R9): the command being performed is the oldest pending one; its response goes to
the host that issued it (30_encoding.md R48), that host's `cpos` advances (R15), and the command is
pending no longer. With no command pending there is no host to respond to. -/
def State.respond (v : Byte) (s : State) : State :=
  match s.pending with
  | [] => s
  | c :: rest =>
    { s with
      pending := rest
      responses := s.responses ++ [⟨c.host, v⟩]
      hosts := s.hosts.modify c.host HostPort.advance }

/-- A command completes with value `v`: it writes `RESULT`, sets `RESULT_VALID` and responds, in one
atomic step (R10, 20_memory.md R32). -/
def State.complete (v : Byte) (s : State) : State := (s.setResult v).respond v

/-- `hold` (R9, 60_exceptions.md R69): the command is neither performed nor dropped, writes no state
and returns no response. It stays the oldest pending command and holds those behind it. -/
def State.hold (s : State) : State := s

/-- The command the engine would perform next: the oldest pending one, decoded (R33). -/
def State.fetch (s : State) : Option Instr := s.pending.head?.map fun c => decode c.word

/-- Whether a command is held in this state: only `PARITY.CACHED`, while `LUT_READY = 0` (R69). -/
def State.holds (s : State) (i : Instr) : Bool :=
  match i with
  | .countbits _ => false
  | .parity _ => false
  | .parityCached _ => decide (s.lutReady ≠ 1#1)
  | .parityXorfold _ => false

/-- Whether the oldest pending command is held (R69). -/
def State.headHeld (s : State) : Bool := s.fetch.any s.holds

end Sys2Proof.Machine
end

