-- ==== Sys2Proof/Machine/Agents.lean ====
section
/-!
DEFINITION. The moves of the agents around the engine's commands: the hosts (20_memory.md R33,
10_state.md R15, R22), the table build (70_reset_and_hazards.md R79) and reset (R74, R76); and which
agent moves next.
-/

namespace Sys2Proof.Machine

/-! ## The hosts -/

/-- Put a command at the end of the issue order (R33). -/
def State.enqueue (h : Nat) (w : CmdWord) (s : State) : State :=
  { s with pending := s.pending ++ [⟨h, w⟩] }

/-- Host `h`'s record is set. -/
def State.setHost (h : Nat) (p : HostPort) (s : State) : State :=
  { s with hosts := s.hosts.set h p }

/-- Host `h` issues the next command of its program, if it has one (R15, R33). -/
def State.hostIssue (h : Nat) (s : State) : State :=
  match s.hosts[h]? with
  | none => s
  | some p =>
    match p.program[p.issued]? with
    | none => s
    | some w => (s.enqueue h w).setHost h { p with issued := p.issued + 1 }

/-- Host `h` issues again the oldest command a reset discarded, if there is one (R76: "the host
must issue it again"). R76 says neither in what order nor when: oldest first, and at any of the host's
moves, is a DESIGN CHOICE (notes/assumptions/7.md). -/
def State.hostReissue (h : Nat) (s : State) : State :=
  match s.hosts[h]? with
  | none => s
  | some p =>
    match p.discarded with
    | [] => s
    | w :: rest => (s.enqueue h w).setHost h { p with discarded := rest }

/-- The value a host reads (R22), in 8 bits; a one-bit register reads with the high bits 0. -/
def State.hostView (s : State) : HostReg → Byte
  | .result => s.result
  | .resultValid => s.resultValid.setWidth 8
  | .lutReady => s.lutReady.setWidth 8

/-- Host `h` reads a register; reading has no side effect on the engine (R22). -/
def State.hostRead (h : Nat) (r : HostReg) (s : State) : State :=
  { s with hosts := s.hosts.modify h fun p => { p with reads := p.reads ++ [(r, s.hostView r)] } }

/-! ## The table build -/

/-- The build has a step to take: only under `BUILT_AT_RESET`, while `BUILD_IDX < 65536` (R79). -/
def State.buildEnabled (s : State) : Bool :=
  decide (s.lutImpl = .builtAtReset) && decide (s.buildIdx.toNat < Config.lutEntries)

/-- The build's index moves on, and the last step sets `LUT_READY` (R79). -/
def State.buildAdvance (s : State) : State :=
  { s with
    buildIdx := s.buildIdx + 1#17
    lutReady := if s.buildIdx + 1#17 = 65536#17 then 1#1 else s.lutReady }

/-- The build step (R79), with no effect where it is not enabled. The entry gets the value `PARITY`
writes for the index. -/
def State.buildStep (s : State) : State :=
  if s.buildEnabled then
    let i : Subword := s.buildIdx.extractLsb' 0 16
    (s.memWrite i (serialParity (i.setWidth 64))).buildAdvance
  else s

/-! ## Reset -/

/-- The words of host `h`'s commands that are pending. -/
def State.pendingOf (s : State) (h : Nat) : List CmdWord :=
  (s.pending.filter fun c => decide (c.host = h)).map Pending.word

/-- The engine's own state at reset (R13, R74). Under `ROM` the table is unchanged; under
`BUILT_AT_RESET` its entries are unspecified again. -/
def State.resetEngine (s : State) : State :=
  match s.lutImpl with
  | .rom =>
    { s with lutReady := 1#1, buildIdx := 65536#17, result := 0x00#8, resultValid := 0#1 }
  | .builtAtReset =>
    { s with
      lut := [], lutReady := 0#1, buildIdx := 0#17, result := 0x00#8, resultValid := 0#1
      lutDraw := s.lutDraw + 1 }

/-- The commands that have not begun are discarded with no response; each host is left to issue its
own again (R76). That a host's newly discarded commands are listed behind those it has not issued
again, even one that was reissued and lost a second time, is a DESIGN CHOICE
(notes/assumptions/7.md). -/
def State.discardPending (s : State) : State :=
  { s with
    pending := []
    hosts := s.hosts.mapIdx fun h p => { p with discarded := p.discarded ++ s.pendingOf h } }

/-- Reset (R74, R76), taken between commands. -/
def State.applyReset (s : State) : State := s.resetEngine.discardPending

/-! ## Who moves next -/

/-- The move when the schedule names none (notes/assumptions/6.md): the table build where the oldest
pending command is held or there is none, and the build is enabled (60_exceptions.md R67); else the
engine. -/
def State.defaultMove (s : State) : Move :=
  if s.buildEnabled && (s.headHeld || s.pending.isEmpty) then .build else .engine

/-- The agent that moves next. -/
def State.nextMove (s : State) : Move :=
  match s.schedule with
  | [] => s.defaultMove
  | m :: _ => m

/-- The schedule with its first move taken off. -/
def State.popMove (s : State) : State := { s with schedule := s.schedule.tail }

/-! ## Programs loaded from outside -/

/-- The hosts' programs and the agents' moves given from outside the machine (R15, R33;
notes/assumptions/5.md). -/
def State.load (hosts : List HostPort) (schedule : List Move) (s : State) : State :=
  { s with hosts := hosts, schedule := schedule }

/-! ## A command placed at the command interface -/

/-- The host's program with one more command in it, just issued. -/
def HostPort.insertIssued (w : CmdWord) (p : HostPort) : HostPort :=
  { p with
    program := p.program.take p.issued ++ w :: p.program.drop p.issued
    issued := p.issued + 1 }

/-- Host 0's program is given the command `w`, host 0 has issued it, it is the oldest pending
command, and the engine moves next. -/
def State.placeCommand (w : CmdWord) (s : State) : State :=
  { s with
    pending := ⟨0, w⟩ :: s.pending
    hosts := s.hosts.modify 0 (HostPort.insertIssued w)
    schedule := .engine :: s.schedule }

end Sys2Proof.Machine
end

