-- ==== Sys2Proof/Machine/Operands.lean ====
section
/-!
DEFINITION. The operands of the commands, taken from the 64-bit `OPERAND` field (30_encoding.md
R41, R42; 41_parity.md R54, R55). There is no other operand form (R44).
-/

namespace Sys2Proof.Machine

/-- The operand of `COUNTBITS`, `OPERAND[31:0]`; bits 63:32 are not read (R41, 40_popcount.md
R52). -/
def countOperand (operand : Word64) : Word32 := operand.extractLsb' 0 32

/-- The operand of the parity commands, all of `OPERAND[63:0]` (R42). -/
def parityOperand (operand : Word64) : Word64 := operand

/-- Subword `k` of a 64-bit value: `((x >>u 16k) AND 0xFFFF)[15:0]` (R54). -/
def subword (x : Word64) (k : Nat) : Subword :=
  ((x >>> (16 * k)) &&& 0xFFFF#64).extractLsb' 0 16

end Sys2Proof.Machine
end

