-- ==== Sys2Proof/Machine/Parity.lean ====
section
/-!
DEFINITION. The three parity commands (41_parity.md).
-/

namespace Sys2Proof.Machine

/-- `PARITY` (R53): the serial reduction. -/
def execParity (operand : Word64) (s : State) : Host.Outcome State Fault Refusal :=
  .next (s.complete (parityByte (serialParity (parityOperand operand))))

/-- The XOR of the four table entries `PARITY.CACHED` reads (R54). -/
def State.cachedParity (s : State) (x : Word64) : Bit :=
  s.memRead (subword x 0) ^^^ s.memRead (subword x 1) ^^^ s.memRead (subword x 2) ^^^
    s.memRead (subword x 3)

/-- `PARITY.CACHED` (R54): four table reads; held while `LUT_READY = 0` (60_exceptions.md R69). -/
def execParityCached (operand : Word64) (s : State) : Host.Outcome State Fault Refusal :=
  if s.lutReady = 1#1 then .next (s.complete (parityByte (s.cachedParity (parityOperand operand))))
  else .next s.hold

/-- `PARITY.XORFOLD` (R56): the six folds. -/
def execParityXorfold (operand : Word64) (s : State) : Host.Outcome State Fault Refusal :=
  .next (s.complete (parityByte (foldParity (parityOperand operand))))

end Sys2Proof.Machine
end

