-- ==== Sys2Proof/Machine/Popcount.lean ====
section
/-!
DEFINITION. The population count command (40_popcount.md).
-/

namespace Sys2Proof.Machine

/-- `COUNTBITS` (R49): the number of 1-bits of `OPERAND[31:0]`. -/
def execCountbits (operand : Word64) (s : State) : Host.Outcome State Fault Refusal :=
  .next (s.complete (BitVec.ofNat 8 (countBits (countOperand operand))))

end Sys2Proof.Machine
end

