-- ==== Sys2Proof/Machine/Dispatch.lean ====
section
/-!
DEFINITION. One arm for each command, each a call of the command's own meaning.
-/

namespace Sys2Proof.Machine

def exec (i : Instr) (s : State) : Host.Outcome State Fault Refusal :=
  match i with
  | .countbits operand => Sys2Proof.Machine.execCountbits operand s
  | .parity operand => Sys2Proof.Machine.execParity operand s
  | .parityCached operand => Sys2Proof.Machine.execParityCached operand s
  | .parityXorfold operand => Sys2Proof.Machine.execParityXorfold operand s

end Sys2Proof.Machine
end

