-- ==== Sys2Proof/Machine/Step.lean ====
section
/-!
DEFINITION. One step of the machine: one agent's move. A command is one atomic step (00_scope.md
R10), and so is a build step, a host's move and a reset (70_reset_and_hazards.md R76).
-/

namespace Sys2Proof.Machine

/-- The engine's move: it performs the oldest pending command (20_memory.md R33); with none pending
it waits for the next one a host issues (R75). -/
def engineStep (s : State) : Host.Outcome State Fault Refusal :=
  match s.fetch with
  | none => .next s
  | some i => exec i s

/-- One step: the agent that moves next takes its move. -/
def step (s : State) : Host.Outcome State Fault Refusal :=
  match s.nextMove with
  | .issue h => .next (s.popMove.hostIssue h)
  | .reissue h => .next (s.popMove.hostReissue h)
  | .read h r => .next (s.popMove.hostRead h r)
  | .engine => engineStep s.popMove
  | .build => .next s.popMove.buildStep
  | .reset => .next s.popMove.applyReset

/-- `s` with the command of number `w` placed where the engine takes its next command, and the
engine to move next, so that the next step performs exactly it. A number that is no 66-bit word is
no command, and nothing is placed. -/
def State.withFetchWord (s : State) (_nbits w : Nat) : State :=
  if w < 2 ^ 66 then s.placeCommand (BitVec.ofNat 66 w) else s

end Sys2Proof.Machine
end

