-- ==== Sys2Proof/WellFormed.lean ====
section
/-!
DEFINITION. What may be said to the engine. Every command is well formed: every `OP` and every
`OPERAND` is legal (30_encoding.md R43), so `Instr.wellFormed` has no check to make. What can be
ill formed is a source line, whose literal must lie in the range of its mnemonic (R46).
-/

namespace Sys2Proof

/-- A command is legal, whatever its operation and operand (R43: no reserved or illegal
encodings). -/
def Instr.wellFormed : Instr → Bool
  | .countbits _ => true
  | .parity _ => true
  | .parityCached _ => true
  | .parityXorfold _ => true

/-- One source line after its tokens have been read: a mnemonic and the value of its literal
(R45). -/
structure SourceLine where
  op : Op
  literal : Int
  deriving DecidableEq, Repr

/-- The least literal the mnemonic accepts (R46): -2^31, or -2^63 for the parity mnemonics. -/
def Op.literalMin : Op → Int
  | .countbits => -2147483648
  | .parity => -9223372036854775808
  | .parityCached => -9223372036854775808
  | .parityXorfold => -9223372036854775808

/-- The greatest literal the mnemonic accepts (R46): 2^32 - 1, or 2^64 - 1 for the parity
mnemonics. -/
def Op.literalMax : Op → Int
  | .countbits => 4294967295
  | .parity => 18446744073709551615
  | .parityCached => 18446744073709551615
  | .parityXorfold => 18446744073709551615

/-- The literal lies in the range of the line's mnemonic (R46). -/
def SourceLine.wellFormed (l : SourceLine) : Bool :=
  decide (l.op.literalMin ≤ l.literal) && decide (l.literal ≤ l.op.literalMax)

end Sys2Proof
end

