-- ==== Sys2Proof/Machine/Assembler.lean ====
section
/-!
DEFINITION. The assembler and the disassembler (30_encoding.md section 3). Text is a list of
characters. What R45 to R47 leave open is settled in notes/assumptions/8.md.
-/

namespace Sys2Proof.Machine

/-- The characters of one source line, without its line end. -/
abbrev Text := List Char

/-- Why a source line is refused (R46). A refused line produces no command; safe. -/
inductive AsmError where
  /-- No mnemonic stands on the line. -/
  | emptyLine
  /-- The first token is none of the four mnemonics. -/
  | unknownMnemonic
  /-- No literal follows the mnemonic. -/
  | missingOperand
  /-- More than one token follows the mnemonic. -/
  | extraOperand
  /-- The token after the mnemonic is no literal. -/
  | malformedLiteral
  /-- The literal lies outside its mnemonic's range. -/
  | literalOutOfRange
  deriving DecidableEq, Repr

/-- The mnemonic of an operation (R45). -/
def opMnemonic : Op → Text
  | .countbits => ['C', 'O', 'U', 'N', 'T', 'B', 'I', 'T', 'S']
  | .parity => ['P', 'A', 'R', 'I', 'T', 'Y']
  | .parityCached => ['P', 'A', 'R', 'I', 'T', 'Y', '.', 'C', 'A', 'C', 'H', 'E', 'D']
  | .parityXorfold => ['P', 'A', 'R', 'I', 'T', 'Y', '.', 'X', 'O', 'R', 'F', 'O', 'L', 'D']

/-- The operation a token names, without regard to letter case (R45). -/
def parseMnemonic (t : Text) : Option Op :=
  [Op.countbits, .parity, .parityCached, .parityXorfold].find? fun op =>
    decide (t.map Char.toUpper = opMnemonic op)

/-- The value of a digit in the given base. -/
def digitValue (base : Nat) (c : Char) : Option Nat :=
  let n := c.toNat
  let v :=
    if 48 ≤ n ∧ n ≤ 57 then n - 48
    else if 65 ≤ n ∧ n ≤ 70 then n - 55
    else if 97 ≤ n ∧ n ≤ 102 then n - 87
    else base
  if v < base then some v else none

/-- The value of digits with `_` between digits (R45): `acc` is the value so far, `afterDigit`
whether the character before was a digit. -/
def parseDigits (base : Nat) : Text → (acc : Nat) → (afterDigit : Bool) → Option Nat
  | [], acc, afterDigit => if afterDigit then some acc else none
  | c :: cs, acc, afterDigit =>
    if c = '_' then
      if afterDigit then parseDigits base cs acc false else none
    else
      match digitValue base c with
      | none => none
      | some d => parseDigits base cs (acc * base + d) true

/-- A natural number in the given base, as an integer. -/
def parseNat (base : Nat) (t : Text) : Option Int := (parseDigits base t 0 false).map Int.ofNat

/-- A literal (R45): `0x` and hexadecimal digits, `0b` and binary digits, or a decimal number with an
optional leading `-`. -/
def parseLiteral : Text → Option Int
  | '0' :: 'x' :: t => parseNat 16 t
  | '0' :: 'b' :: t => parseNat 2 t
  | '-' :: t => (parseNat 10 t).map fun n => -n
  | t => parseNat 10 t

/-- A blank separates tokens. -/
def isBlank (c : Char) : Bool := decide (c = ' ') || decide (c = '\t')

/-- The line without its comment (R45: a comment starts with `;`). -/
def stripComment (line : Text) : Text := line.takeWhile fun c => decide (c ≠ ';')

/-- The tokens of a line: `cur` holds the token being read, last character first. -/
def tokensFrom : Text → (cur : Text) → List Text
  | [], cur => if cur = [] then [] else [cur.reverse]
  | c :: cs, cur =>
    if isBlank c then
      if cur = [] then tokensFrom cs [] else cur.reverse :: tokensFrom cs []
    else tokensFrom cs (c :: cur)

/-- The line's mnemonic and literal (R45), before the literal's range is checked. -/
def parseLine (line : Text) : Except AsmError SourceLine :=
  match tokensFrom (stripComment line) [] with
  | [] => .error .emptyLine
  | m :: rest =>
    match parseMnemonic m with
    | none => .error .unknownMnemonic
    | some op =>
      match rest with
      | [] => .error .missingOperand
      | _ :: _ :: _ => .error .extraOperand
      | [l] =>
        match parseLiteral l with
        | none => .error .malformedLiteral
        | some v => .ok ⟨op, v⟩

/-- The command of a line whose literal is in range (R46): `OPERAND = v mod 2^64` (R45). -/
def assembleSource (l : SourceLine) : Except AsmError CmdWord :=
  if l.wellFormed then .ok (encode (Instr.ofOp l.op (BitVec.ofInt 64 l.literal)))
  else .error .literalOutOfRange

/-- The command word of one source line, or why the line is refused (R45, R46). -/
def assembleLine (line : Text) : Except AsmError CmdWord :=
  match parseLine line with
  | .error e => .error e
  | .ok l => assembleSource l

/-- The program of a list of lines, one command per line (R45), or the first refused line, named by
its number counted from `n`, and why (R46). R46 says only that a refused line is named and produces
no command; that a source with a refused line gives no program at all, and that only the first such
line is named, is a DESIGN CHOICE (notes/assumptions/8.md). -/
def assembleFrom (n : Nat) : List Text → Except (Nat × AsmError) (List CmdWord)
  | [] => .ok []
  | line :: lines =>
    match assembleLine line with
    | .error e => .error (n, e)
    | .ok w =>
      match assembleFrom (n + 1) lines with
      | .error e => .error e
      | .ok ws => .ok (w :: ws)

/-- The program of a list of lines, the first of which is line 1. -/
def assembleProgram (lines : List Text) : Except (Nat × AsmError) (List CmdWord) :=
  assembleFrom 1 lines

/-- The character of a hexadecimal digit. -/
def hexDigit (d : Nat) : Char := if d < 10 then Char.ofNat (48 + d) else Char.ofNat (55 + d)

/-- The last `k` hexadecimal digits of `n`, the highest first. -/
def hexDigits : (k : Nat) → (n : Nat) → Text
  | 0, _ => []
  | k + 1, n => hexDigits k (n / 16) ++ [hexDigit (n % 16)]

/-- The one line a command word disassembles to (R47): `<mnemonic> 0x<OPERAND as 16 hex digits>`. -/
def disassemble (w : CmdWord) : Text :=
  opMnemonic (decode w).op ++ ' ' :: '0' :: 'x' :: hexDigits 16 (decode w).operand.toNat

end Sys2Proof.Machine
end

