-- ==== Sys2Proof/Safety.lean ====
section
/-!
DEFINITION. What claims are stated with: the invariants of a state, a run of steps, the value the
rules give each command, the commands a schedule issues, and the end of a program.
-/

namespace Sys2Proof.Machine

/-- The lookup table's invariant: `LUT_READY` is 1 exactly when the build index has reached 65,536
(10_state.md R23); under `ROM` it always has (R13); every entry below the build index holds the
parity of its address (R18, 70_reset_and_hazards.md R79); and the list of entries is in canonical
form. -/
structure TableInv (s : State) : Prop where
  buildIdx_le : s.buildIdx.toNat ≤ Config.lutEntries
  ready_iff : s.lutReady = 1#1 ↔ s.buildIdx.toNat = Config.lutEntries
  rom_ready : s.lutImpl = .rom → s.buildIdx.toNat = Config.lutEntries
  built_entries : ∀ a : Subword, a.toNat < s.buildIdx.toNat →
    s.lut.read s.lutImpl a.toNat = some (par a)
  canonical : Memory.wf s.lutImpl s.lut

/-- The result registers' invariant: while `RESULT_VALID = 0`, `RESULT` reads 0x00 (R20), and no
command's result is over 32 (R19). -/
structure ResultInv (s : State) : Prop where
  zero_while_invalid : s.resultValid = 0#1 → s.result = 0x00#8
  result_le : s.result.toNat ≤ 32

/-- How many of host `h`'s commands are pending. -/
def State.inflight (s : State) (h : Nat) : Nat := (s.pendingOf h).length

/-- How many responses host `h` has received. -/
def State.responsesTo (s : State) (h : Nat) : Nat :=
  s.responses.countP fun r => decide (r.host = h)

/-- The hosts' invariant: every command a host has issued has completed, is pending, or was discarded
by a reset and not issued again (10_state.md R15, 60_exceptions.md R69, 70_reset_and_hazards.md
R76); a host has as many responses as completed commands (30_encoding.md R48); and every pending
command is a host's. -/
structure HostInv (s : State) : Prop where
  accounted : ∀ (h : Nat) (p : HostPort), s.hosts[h]? = some p →
    p.issued = p.cpos + s.inflight h + p.discarded.length
  issued_le : ∀ (h : Nat) (p : HostPort), s.hosts[h]? = some p → p.issued ≤ p.program.length
  responded : ∀ (h : Nat) (p : HostPort), s.hosts[h]? = some p → s.responsesTo h = p.cpos
  issuer : ∀ c ∈ s.pending, c.host < s.hosts.length

/-- Host `h`'s program has ended (R15, R86): `cpos` is the program's length and no command of the
host is pending. -/
def State.programEnded (s : State) (h : Nat) : Prop :=
  ∃ p, s.hosts[h]? = some p ∧ p.cpos = p.program.length ∧ s.inflight h = 0

/-- What is observed at the end of a run (R86): the responses in completion order and the final
`RESULT`, `RESULT_VALID` and `LUT_READY`. -/
structure Observation where
  responses : List Response
  result : Byte
  resultValid : Bit
  lutReady : Bit
  deriving DecidableEq, Repr

/-- The observation of a state (R86). -/
def State.observe (s : State) : Observation :=
  { responses := s.responses, result := s.result, resultValid := s.resultValid,
    lutReady := s.lutReady }

/-- `k` steps, stopping at a fault or a refusal. -/
def run : (k : Nat) → State → Host.Outcome State Fault Refusal
  | 0, s => .next s
  | k + 1, s =>
    match step s with
    | .next t => run k t
    | .fault f => .fault f
    | .refused r => .refused r

/-- The value the rules give a command, in closed form: `zext_8(popcount(OPERAND[31:0]))`
(40_popcount.md R50) or `zext_8(par(OPERAND))` (41_parity.md R58). -/
def ruleValue : Instr → Byte
  | .countbits x => BitVec.ofNat 8 (popcount (countOperand x))
  | .parity x => parityByte (par x)
  | .parityCached x => parityByte (par x)
  | .parityXorfold x => parityByte (par x)

/-- The response the rules give a pending command. -/
def Pending.ruleResponse (c : Pending) : Response := ⟨c.host, ruleValue (decode c.word)⟩

/-- What a host has still to issue: the rest of its program (10_state.md R15), and the commands a
reset discarded (70_reset_and_hazards.md R76), oldest first. -/
structure Unissued where
  rest : List CmdWord
  lost : List CmdWord
  deriving DecidableEq, Repr

/-- What a host has still to issue. -/
def HostPort.unissued (p : HostPort) : Unissued := ⟨p.program.drop p.issued, p.discarded⟩

/-- The commands that a schedule without a reset has the hosts issue, in issue order (20_memory.md
R33), given what each has still to issue. It is written from the rules, not from `State.hostIssue`
and `State.hostReissue`; a move that cannot be made issues nothing. -/
def issueOrder : List Unissued → List Move → List Pending
  | _, [] => []
  | us, .issue h :: ms =>
    match us[h]? with
    | some ⟨w :: rest, lost⟩ => ⟨h, w⟩ :: issueOrder (us.set h ⟨rest, lost⟩) ms
    | _ => issueOrder us ms
  | us, .reissue h :: ms =>
    match us[h]? with
    | some ⟨rest, w :: lost⟩ => ⟨h, w⟩ :: issueOrder (us.set h ⟨rest, lost⟩) ms
    | _ => issueOrder us ms
  | us, .read _ _ :: ms => issueOrder us ms
  | us, .engine :: ms => issueOrder us ms
  | us, .build :: ms => issueOrder us ms
  | us, .reset :: ms => issueOrder us ms

/-- The commands issued over what is left of the schedule, in issue order. -/
def State.issuedLater (s : State) : List Pending :=
  issueOrder (s.hosts.map HostPort.unissued) s.schedule

/-- `k` build steps in a row. -/
def State.buildSteps : (k : Nat) → State → State
  | 0, s => s
  | k + 1, s => State.buildSteps k s.buildStep

end Sys2Proof.Machine
end

