-- ==== Sys2Proof/Certificates/Slice0/Obligations.lean ====
section
/-!
DEFINITION. The statements for the provers. Each docstring names the rule of the spec it rests on.
-/

open Sys2Proof Sys2Proof.Machine

/-! ## Encoding -/

/-- Words written out from the encodings of R38 and R40 (the worked examples of R49, R53, R54 and
R56) decode to the commands they stand for. -/
def Obligations.SpecWordsDecode : Prop :=
  decode 0x00000000000000005#66 = .countbits 5#64 ∧
  decode 0x0FFFFFFFF00000000#66 = .countbits 0xFFFFFFFF00000000#64 ∧
  decode 0x10000000000000001#66 = .parity 1#64 ∧
  decode 0x200000000014F8B58#66 = .parityCached 21990232#64 ∧
  decode 0x30000000000000000#66 = .parityXorfold 0#64 ∧
  decode 0x3FFFFFFFFFFFFFFFF#66 = .parityXorfold 0xFFFFFFFFFFFFFFFF#64

/-- R40: the value of `OP` alone selects the operation, and so do `match` and `mask` of the opcode
table, whose mask is `0x3_0000_0000_0000_0000` in every row; `OPERAND` is bits 63:0. -/
def Obligations.OpFieldSelectsOperation : Prop :=
  opcodeTable.map OpcodeRow.op = [.countbits, .parity, .parityCached, .parityXorfold] ∧
  (∀ r ∈ opcodeTable, r.maskBits = 0x30000000000000000#66) ∧
  ∀ w : CmdWord,
    (decode w).operand = w.extractLsb' 0 64 ∧
    ((decode w).op = .countbits ↔ w.extractLsb' 64 2 = 0b00#2) ∧
    ((decode w).op = .parity ↔ w.extractLsb' 64 2 = 0b01#2) ∧
    ((decode w).op = .parityCached ↔ w.extractLsb' 64 2 = 0b10#2) ∧
    ((decode w).op = .parityXorfold ↔ w.extractLsb' 64 2 = 0b11#2) ∧
    ∀ r ∈ opcodeTable, (w &&& r.maskBits = r.matchBits ↔ (decode w).op = r.op)

/-- Decoding the word of any command gives the command back, and encoding the command of any word
gives the word back (R38, R43, R47): no bit of an encoding is dropped. -/
def Obligations.DecodeAndEncodeAgree : Prop :=
  (∀ i : Instr, decode (encode i) = i) ∧ ∀ w : CmdWord, encode (decode w) = w

/-- R43: every one of the 2^66 command words is a command, and performing it never traps: whatever
the state, it answers a next state. -/
def Obligations.EveryWordIsALegalCommand : Prop :=
  ∀ n : Nat, n < 2 ^ 66 →
    ∃ i : Instr, decodeNumber n = .ok i ∧ i.wellFormed = true ∧
      ∀ s : State, ∃ t : State, exec i s = .next t

/-! ## A step -/

/-- Where the engine moves next, a step is the meaning of the oldest pending command, decoded, in
the state with the move taken off the schedule (R33, R10). With none pending the engine waits
(R75), which the model shows as a step that changes nothing else (notes/assumptions/6.md). -/
def Obligations.StepPerformsDecodedCommand : Prop :=
  ∀ s : State, s.nextMove = .engine →
    (∀ (c : Pending) (rest : List Pending), s.pending = c :: rest →
      step s = exec (decode c.word) { s with schedule := s.schedule.tail }) ∧
    (s.pending = [] → step s = .next { s with schedule := s.schedule.tail })

/-- No step faults and none is refused (R63, R70). -/
def Obligations.EveryStepAnswersNext : Prop :=
  ∀ s : State, ∃ t : State, step s = .next t

/-! ## Population count -/

/-- R50: the value `COUNTBITS` writes is `zext_8(popcount(OPERAND[31:0]))`, the sum of bits 0 to 31
of `OPERAND`. -/
def Obligations.CountbitsWritesPopulationCount : Prop :=
  ∀ (x : Word64) (s : State),
    exec (.countbits x) s = .next (s.complete (BitVec.ofNat 8 (popcount (x.extractLsb' 0 32)))) ∧
    popcount (x.extractLsb' 0 32) = ∑ i : Fin 32, (x.getLsbD i).toNat

/-- R52: bits 63:32 of `OPERAND` are not read. -/
def Obligations.CountbitsIgnoresHighHalf : Prop :=
  (∀ (x : Word64) (s : State),
    exec (.countbits x) s = exec (.countbits ((x.extractLsb' 0 32).setWidth 64)) s) ∧
  ∀ s : State, exec (.countbits 0xFFFFFFFF00000000#64) s = .next (s.complete 0x00#8)

/-- R51: the shift of the count loop is logical, so the loop makes at most 32 passes (allowed more,
it makes no more and counts no more); with a shift that copies the sign bit a value with bit 31 set
would never reach 0. -/
def Obligations.CountLoopEndsByLogicalShift : Prop :=
  ∀ x : Word32,
    (x >>> (1 : Nat)).getLsbD 31 = false ∧
    (∀ fuel : Nat, loopPasses fuel x ≤ 32) ∧
    (∀ k c : Nat, countLoop (32 + k) x c = countLoop 32 x c) ∧
    (x.getLsbD 31 = true → ∀ k : Nat, x.sshiftRight k ≠ 0#32)

/-- R85 (non-normative), its rows `COUNTBITS` and `PARITY`: the loops those commands run make 0 passes
on a zero operand and else as many as the index of the highest 1-bit plus 1. With `n` that number:
for every `j`, a loop allowed `j` passes more than `m` is the loop allowed `m` on what is left after
`j` shifts, with the low `j` bits accumulated; what is left is 0 after `n` shifts and after no fewer;
and a loop on 0 makes no pass. `loopPasses` counts these passes. -/
def Obligations.LoopPassesAreHighestBitIndex : Prop :=
  (∀ x : Word32,
    let n := if x = 0#32 then 0 else Nat.log2 x.toNat + 1
    (∀ j m c : Nat,
      countLoop (j + m) x c = countLoop m (x >>> j) (c + popcount (x.extractLsb' 0 j))) ∧
    (∀ m c : Nat, countLoop m 0#32 c = c) ∧
    (∀ m c : Nat, countLoop (n + m) x c = countLoop n x c) ∧
    (∀ j : Nat, x >>> j = 0#32 ↔ n ≤ j) ∧ loopPasses 33 x = n) ∧
  ∀ x : Word64,
    let n := if x = 0#64 then 0 else Nat.log2 x.toNat + 1
    (∀ (j m : Nat) (p : Bit),
      parityLoop (j + m) x p = parityLoop m (x >>> j) (p ^^^ par (x.extractLsb' 0 j))) ∧
    (∀ (m : Nat) (p : Bit), parityLoop m 0#64 p = p) ∧
    (∀ (m : Nat) (p : Bit), parityLoop (n + m) x p = parityLoop n x p) ∧
    (∀ j : Nat, x >>> j = 0#64 ↔ n ≤ j) ∧ loopPasses 65 x = n

/-! ## Parity -/

/-- R53: `PARITY` completes in every state and writes `zext_8(par(OPERAND))`; its loop ends within
64 passes. -/
def Obligations.ParityWritesParity : Prop :=
  ∀ x : Word64,
    (∀ s : State, exec (.parity x) s = .next (s.complete (parityByte (par x)))) ∧
    ∀ (k : Nat) (p : Bit), parityLoop (64 + k) x p = parityLoop 64 x p

/-- R57: after each fold the low bits hold the parity of the operand, because a fold adds the upper
half's parity into the lower half; so `PARITY.XORFOLD`, which completes in every state, writes
`zext_8(par(OPERAND))`. -/
def Obligations.FoldInvariantGivesParity : Prop :=
  ∀ x : Word64,
    (∀ j sh : Nat, [32, 16, 8, 4, 2, 1][j]? = some sh →
      par ((foldPrefix (j + 1) x).extractLsb' 0 sh) = par x ∧
      (foldPrefix (j + 1) x).extractLsb' 0 sh =
        (foldPrefix j x).extractLsb' 0 sh ^^^ (foldPrefix j x).extractLsb' sh sh) ∧
    (foldPrefix 6 x).extractLsb' 0 1 = par x ∧
    ∀ s : State, exec (.parityXorfold x) s = .next (s.complete (parityByte (par x)))

/-- R54: `PARITY.CACHED`, with `LUT_READY = 1`, writes the XOR of the four table entries addressed by
the operand's 16-bit subwords, whatever the table holds. -/
def Obligations.ParityCachedReadsFourEntries : Prop :=
  ∀ (x : Word64) (s : State), s.lutReady = 1#1 →
    exec (.parityCached x) s = .next (s.complete (parityByte
      (s.memRead (x.extractLsb' 0 16) ^^^ s.memRead (x.extractLsb' 16 16) ^^^
        s.memRead (x.extractLsb' 32 16) ^^^ s.memRead (x.extractLsb' 48 16))))

/-- R55: the subwords are slices of the operand, and with the table's invariant `PARITY.CACHED`
writes `par(x)` whenever it performs. -/
def Obligations.ParityCachedWritesParity : Prop :=
  ∀ x : Word64,
    (∀ k : Nat, k < 4 → subword x k = x.extractLsb' (16 * k) 16) ∧
    ∀ s : State, TableInv s → s.lutReady = 1#1 →
      exec (.parityCached x) s = .next (s.complete (parityByte (par x)))

/-- R69: under `LUT_IMPL = ROM` no command is ever held, and `PARITY.CACHED` performs. -/
def Obligations.RomHoldsNoCommand : Prop :=
  ∀ s : State, TableInv s → s.lutImpl = .rom →
    s.headHeld = false ∧
    ∀ x : Word64, exec (.parityCached x) s = .next (s.complete (parityByte (par x)))

/-- R69: `PARITY.CACHED` while `LUT_READY = 0` is held: nothing changes, the command included. That
a held command shows as a step to the same state is the model's choice (notes/assumptions/4.md). -/
def Obligations.ParityCachedWaitsForTable : Prop :=
  ∀ (x : Word64) (s : State), s.lutReady = 0#1 → exec (.parityCached x) s = .next s

/-- R69 and R33: while the oldest pending command is a held `PARITY.CACHED`, no step but reset drops
it, performs it or any command behind it, returns a response, or writes the result registers;
commands issued meanwhile queue behind it. By R15 no host's `cpos` advances, none of its commands
having completed; that `cpos` does not move with the issue of a command is the model's reading
(notes/assumptions/5.md). -/
def Obligations.HeldCommandStaysAndHoldsOthers : Prop :=
  ∀ (s t : State) (c : Pending) (rest : List Pending) (x : Word64),
    s.pending = c :: rest → decode c.word = .parityCached x → s.lutReady = 0#1 →
    s.nextMove ≠ .reset → step s = .next t →
      (∃ later : List Pending, t.pending = c :: rest ++ later) ∧
      t.responses = s.responses ∧ t.result = s.result ∧ t.resultValid = s.resultValid ∧
      t.hosts.map HostPort.cpos = s.hosts.map HostPort.cpos

/-- R58: for every 64-bit `OPERAND` the three parity commands, `PARITY.CACHED` once it performs,
write the same value, `zext_8(par(OPERAND))`, and leave the same state. -/
def Obligations.ThreeParityCommandsAgree : Prop :=
  ∀ (x : Word64) (s : State),
    exec (.parity x) s = .next (s.complete (parityByte (par x))) ∧
    exec (.parityXorfold x) s = exec (.parity x) s ∧
    (TableInv s → s.lutReady = 1#1 → exec (.parityCached x) s = exec (.parity x) s)

/-- R59: a parity command writes `(COUNTBITS(OPERAND) + popcount(OPERAND[63:32])) mod 2`, which is
`COUNTBITS mod 2` exactly when the high half has an even number of 1-bits, and so for every 32-bit
pattern that is zero- or sign-extended. (`PARITY.CACHED` once it performs.) -/
def Obligations.ParityIsPopulationCountMod2 : Prop :=
  ∀ (x : Word64) (s : State),
    ∀ i ∈ [Instr.parity x, .parityCached x, .parityXorfold x],
      (i.op = .parityCached → TableInv s ∧ s.lutReady = 1#1) →
      ∃ t u : State, exec (.countbits x) s = .next t ∧ exec i s = .next u ∧
        u.result.toNat = (t.result.toNat + popcount (x.extractLsb' 32 32)) % 2 ∧
        (u.result.toNat = t.result.toNat % 2 ↔ popcount (x.extractLsb' 32 32) % 2 = 0) ∧
        ∀ v : Word32, x = v.setWidth 64 ∨ x = v.signExtend 64 →
          u.result.toNat = t.result.toNat % 2

/-- R60: the parity commands depend only on `popcount(OPERAND)`, which no permutation and no rotation
of the bits changes. -/
def Obligations.ParityDependsOnlyOnPopcount : Prop :=
  (∀ (x y : Word64) (s : State), popcount y = popcount x →
    exec (.parity y) s = exec (.parity x) s ∧
    exec (.parityXorfold y) s = exec (.parityXorfold x) s ∧
    (TableInv s → exec (.parityCached y) s = exec (.parityCached x) s)) ∧
  (∀ (x y : Word64) (σ : Equiv.Perm (Fin 64)),
    (∀ i : Fin 64, y.getLsbD i = x.getLsbD (σ i)) → popcount y = popcount x) ∧
  ∀ (x : Word64) (k : Nat), popcount (x.rotateLeft k) = popcount x

/-- R61: every parity command that is not held writes 0x00 or 0x01; bits 7:1 are 0. -/
def Obligations.ParityResultIsZeroOrOne : Prop :=
  ∀ (i : Instr) (s : State), i.op ≠ .countbits → s.holds i = false →
    ∃ t : State, exec i s = .next t ∧ (t.result = 0x00#8 ∨ t.result = 0x01#8) ∧
      t.result.extractLsb' 1 7 = 0#7

/-! ## Completion: response, position, frame -/

/-- R48: a command that completes returns one response, the value it writes to `RESULT`, to the host
that issued it: 0x00 to 0x20 for `COUNTBITS`, 0x00 or 0x01 for the parity commands. -/
def Obligations.ResponseIsResultToIssuer : Prop :=
  ∀ (i : Instr) (s : State) (c : Pending) (rest : List Pending),
    s.pending = c :: rest → s.holds i = false →
    ∃ t : State, exec i s = .next t ∧ t.pending = rest ∧
      t.responses = s.responses ++ [⟨c.host, t.result⟩] ∧
      (i.op = .countbits → t.result.toNat ≤ 0x20) ∧
      (i.op ≠ .countbits → t.result = 0x00#8 ∨ t.result = 0x01#8)

/-- R15: when a command completes, `cpos` of the host that issued it advances by exactly 1, and
nothing else of any host changes. -/
def Obligations.CposAdvancesByOne : Prop :=
  ∀ (i : Instr) (s : State) (c : Pending) (rest : List Pending) (p : HostPort),
    s.pending = c :: rest → s.holds i = false → s.hosts[c.host]? = some p →
    ∃ t : State, exec i s = .next t ∧
      t.hosts[c.host]? = some { p with cpos := p.cpos + 1 } ∧
      ∀ h : Nat, h ≠ c.host → t.hosts[h]? = s.hosts[h]?

/-- The frame of all four commands (R21, R24): the table (every entry of it), `LUT_READY`,
`BUILD_IDX`, the parameter, the free value's counter, the schedule, and each host's program, issue
position, discarded commands and reads are unchanged; the responses already returned stay; the
pending commands behind the oldest stay. -/
def Obligations.CommandFrame : Prop :=
  ∀ (i : Instr) (s t : State), exec i s = .next t →
    t.lutImpl = s.lutImpl ∧ t.lut = s.lut ∧ t.lutReady = s.lutReady ∧
    t.buildIdx = s.buildIdx ∧ t.lutDraw = s.lutDraw ∧ t.schedule = s.schedule ∧
    (∀ a : Subword, t.memRead a = s.memRead a) ∧
    t.hosts.map HostPort.program = s.hosts.map HostPort.program ∧
    t.hosts.map HostPort.issued = s.hosts.map HostPort.issued ∧
    t.hosts.map HostPort.discarded = s.hosts.map HostPort.discarded ∧
    t.hosts.map HostPort.reads = s.hosts.map HostPort.reads ∧
    (∃ new : List Response, t.responses = s.responses ++ new) ∧
    (t.pending = s.pending ∨ t.pending = s.pending.tail)

/-- R24: every command that completes writes `RESULT` and sets `RESULT_VALID`, and no command writes
`LUT`, `LUT_READY` or `BUILD_IDX`; only reset and the table build write those. The value written
does not depend on what `RESULT` and `RESULT_VALID` held. -/
def Obligations.WhoWritesWhichState : Prop :=
  (∀ (i : Instr) (s : State), s.holds i = false →
    ∃ v : Byte, ∀ (old : Byte) (valid : Bit), ∃ t : State,
      exec i { s with result := old, resultValid := valid } = .next t ∧
      t.result = v ∧ t.resultValid = 1#1 ∧
      t.lut = s.lut ∧ t.lutReady = s.lutReady ∧ t.buildIdx = s.buildIdx) ∧
  ∀ s t : State, step s = .next t → s.nextMove ≠ .build → s.nextMove ≠ .reset →
    t.lut = s.lut ∧ t.lutReady = s.lutReady ∧ t.buildIdx = s.buildIdx

/-- R33: but for reset, a step either returns no response and takes no command off the queue, or
completes the oldest pending command, and only that. -/
def Obligations.CommandsCompleteInIssueOrder : Prop :=
  ∀ s t : State, s.nextMove ≠ .reset → step s = .next t →
    (t.responses = s.responses ∧ t.result = s.result ∧ t.resultValid = s.resultValid ∧
      ∃ new : List Pending, new.length ≤ 1 ∧ t.pending = s.pending ++ new) ∨
    (∃ (c : Pending) (rest : List Pending), s.pending = c :: rest ∧ t.pending = rest ∧
      t.responses = s.responses ++ [⟨c.host, t.result⟩] ∧ t.resultValid = 1#1)

/-- R33: every interleaving of the hosts' command lists is a possible issue order. For any list of
hosts, each of which still has as many commands as it stands in the list, the schedule that lets
them issue in that order queues their commands in that order, each host's own in program order. That
all of them can be queued rests on the model's unbounded queue (notes/assumptions/9.md), and the
issue position kept beside `cpos` is the model's reading (notes/assumptions/5.md). -/
def Obligations.AnyInterleavingIsAnIssueOrder : Prop :=
  ∀ (s : State) (hs : List Nat) (later : List Move),
    s.schedule = hs.map Move.issue ++ later →
    (∀ h ∈ hs, ∃ p : HostPort, s.hosts[h]? = some p ∧
      p.issued + hs.count h ≤ p.program.length) →
    ∃ t : State, run hs.length s = .next t ∧
      t.pending.map Pending.host = s.pending.map Pending.host ++ hs ∧
      (∀ (h : Nat) (p : HostPort), s.hosts[h]? = some p →
        t.pendingOf h = s.pendingOf h ++ (p.program.drop p.issued).take (hs.count h)) ∧
      t.responses = s.responses ∧ t.result = s.result ∧ t.schedule = later

/-! ## The lookup table and its build -/

/-- R18: in every run from reset, whatever the parameter, the hosts' programs and the schedule,
whenever `LUT_READY = 1` every entry of the table reads as the parity of its address. -/
def Obligations.ReadyTableHoldsParities : Prop :=
  (∀ (impl : LutImpl) (hosts : List HostPort) (schedule : List Move) (k : Nat) (t : State),
    run k ((State.resetFor impl).load hosts schedule) = .next t →
    t.lutReady = 1#1 → ∀ a : Subword, t.memRead a = par a) ∧
  par 0#16 = 0#1 ∧ par 1#16 = 1#1 ∧ par 3#16 = 0#1

/-- The table's invariant (R13, R18, R23, and the list's canonical form) is kept by every step from
every state that meets it. -/
def Obligations.StepKeepsTableInv : Prop :=
  ∀ s t : State, TableInv s → step s = .next t → TableInv t

/-- R16, R34, R78: once `LUT_READY` is 1 no step but reset clears it or changes an entry. -/
def Obligations.PublishedTableIsFixed : Prop :=
  ∀ s t : State, TableInv s → s.lutReady = 1#1 → s.nextMove ≠ .reset → step s = .next t →
    t.lutReady = 1#1 ∧ t.lut = s.lut ∧ ∀ a : Subword, t.memRead a = par a

/-- R79: a build step, where it is enabled, writes the entry at the build index with the bit `PARITY`
writes for that index, advances the index by 1, sets `LUT_READY` with the last entry, and changes
nothing else. That a scheduled build move that is not enabled shows as a step that changes only the
schedule is the model's choice (notes/assumptions/6.md). -/
def Obligations.BuildStepWritesOneEntry : Prop :=
  ∀ s : State, s.nextMove = .build →
    (s.lutImpl = .builtAtReset → s.buildIdx.toNat < 65536 →
      ∃ t : State, step s = .next t ∧
        (∀ a : Subword, t.memRead a =
          if a.toNat = s.buildIdx.toNat then par a else s.memRead a) ∧
        (∀ (x : Word64) (u : State), x.toNat = s.buildIdx.toNat → exec (.parity x) s = .next u →
          u.result = parityByte (t.memRead (x.extractLsb' 0 16))) ∧
        t.buildIdx.toNat = s.buildIdx.toNat + 1 ∧
        t.lutReady = (if s.buildIdx.toNat + 1 = 65536 then 1#1 else s.lutReady) ∧
        t = { s with
          lut := t.lut, lutReady := t.lutReady, buildIdx := t.buildIdx
          schedule := s.schedule.tail }) ∧
    (s.lutImpl = .rom ∨ 65536 ≤ s.buildIdx.toNat →
      step s = .next { s with schedule := s.schedule.tail })

/-- R80, R69: the build ends. From a built table's reset, `LUT_READY` is 0 after fewer than 65,536
build steps, and after exactly 65,536 it is 1 and every entry is the parity of its address. -/
def Obligations.BuildEndsAfterAllEntries : Prop :=
  ∀ s : State, s.lutImpl = .builtAtReset → s.buildIdx = 0#17 → s.lutReady = 0#1 →
    (∀ k : Nat, k < 65536 → (s.buildSteps k).lutReady = 0#1) ∧
    (s.buildSteps 65536).lutReady = 1#1 ∧ (s.buildSteps 65536).buildIdx = 65536#17 ∧
    ∀ a : Subword, (s.buildSteps 65536).memRead a = par a

/-- R81: `COUNTBITS`, `PARITY` and `PARITY.XORFOLD` perform the same whatever the table, `LUT_READY`
and the build index are. -/
def Obligations.OtherCommandsIgnoreTheTable : Prop :=
  ∀ (i : Instr) (s : State) (impl : LutImpl) (m : Memory) (ready : Bit) (idx : BuildIdx)
      (draw : Nat), i.op ≠ .parityCached →
    ∃ t : State, exec i s = .next t ∧
      exec i { s with
          lutImpl := impl, lut := m, lutReady := ready, buildIdx := idx, lutDraw := draw } =
        .next { t with
          lutImpl := impl, lut := m, lutReady := ready, buildIdx := idx, lutDraw := draw }

/-- R13, R79: while `LUT_READY = 0` no command observes what the table holds or what its unwritten
entries would read as: performed over any other table, each command does the same. -/
def Obligations.UnreadyTableIsNotObservable : Prop :=
  ∀ (i : Instr) (s : State) (m : Memory) (draw : Nat), s.lutReady = 0#1 →
    ∃ t : State, exec i s = .next t ∧
      exec i { s with lut := m, lutDraw := draw } = .next { t with lut := m, lutDraw := draw }

/-- R13, R28: the free value of an entry the build has not written is never observed. Two runs of
the same length from states that meet the table's invariant and differ only in the draw of that
value differ in nothing else. -/
def Obligations.FreeEntryValueIsNeverObserved : Prop :=
  ∀ (k : Nat) (s t : State) (draw : Nat), TableInv s → run k s = .next t →
    ∃ draw' : Nat, run k { s with lutDraw := draw } = .next { t with lutDraw := draw' }

/-! ## Reset -/

/-- R74: the values reset sets, for each `LUT_IMPL`. Under `BUILT_AT_RESET` the entries are
unspecified (R13, R74); that each reads as the free value of this reset's draw is the model's choice
(notes/assumptions/3.md). -/
def Obligations.ResetSetsResetValues : Prop :=
  ∀ s : State, s.nextMove = .reset →
    ∃ t : State, step s = .next t ∧ t.result = 0x00#8 ∧ t.resultValid = 0#1 ∧
      (s.lutImpl = .rom → t.lutReady = 1#1 ∧ t.buildIdx = 65536#17 ∧ t.lut = s.lut) ∧
      (s.lutImpl = .builtAtReset → t.lutReady = 0#1 ∧ t.buildIdx = 0#17 ∧
        ∀ a : Subword, t.memRead a = Config.freeLutEntry t.lutDraw a.toNat)

/-- R76: reset discards every command that has not completed, with no response; each host is left
with its own, in order, to issue again, and its position is unchanged. That a command issued and not
held, but not begun, is discarded too, and that a host keeps a list of what it lost, is the model's
reading (notes/assumptions/7.md). -/
def Obligations.ResetDiscardsPendingCommands : Prop :=
  ∀ s : State, s.nextMove = .reset →
    ∃ t : State, step s = .next t ∧ t.pending = [] ∧ t.responses = s.responses ∧
      t.hosts.length = s.hosts.length ∧
      ∀ (h : Nat) (p : HostPort), s.hosts[h]? = some p →
        t.hosts[h]? = some { p with discarded := p.discarded ++ s.pendingOf h }

/-- The state after reset, for each `LUT_IMPL`, meets the invariants of the table and the result
registers (R13, R74) and of the hosts (R15: `cpos` starts at 0). The hosts' clause rests on the
model's choice of the initial host, the empty record of responses (notes/assumptions/5.md) and the
empty list of discarded commands (notes/assumptions/7.md). -/
def Obligations.ResetMeetsTheInvariants : Prop :=
  ∀ impl : LutImpl, TableInv (State.resetFor impl) ∧ ResultInv (State.resetFor impl) ∧
    HostInv (State.resetFor impl)

/-! ## The result registers and the hosts -/

/-- R19, R20: every step keeps the result registers' invariant. It needs the results of the commands
to be at most 32 whatever the table holds. -/
def Obligations.StepKeepsResultInv : Prop :=
  ∀ s t : State, ResultInv s → step s = .next t → ResultInv t

/-- R20: `RESULT_VALID` falls only at reset, and rises only when a command completes. -/
def Obligations.ResultValidFollowsCompletion : Prop :=
  ∀ s t : State, s.nextMove ≠ .reset → step s = .next t →
    (s.resultValid = 1#1 → t.resultValid = 1#1) ∧
    (s.resultValid = 0#1 → t.resultValid = 1#1 →
      t.responses.length = s.responses.length + 1)

/-- R15, R48, R76: every step keeps the hosts' account: each issued command has completed with one
response, is pending, or was discarded by reset and not issued again. The account's terms are the
model's (notes/assumptions/5.md, notes/assumptions/7.md). -/
def Obligations.StepKeepsHostInv : Prop :=
  ∀ s t : State, HostInv s → step s = .next t → HostInv t

/-- R22: a host reads `RESULT`, `RESULT_VALID` or `LUT_READY` as it stands, and the read changes
nothing but what that host has read. The record of what a host has read and the zero-extended 8-bit
form of the one-bit registers are the model's choice (notes/assumptions/9.md). -/
def Obligations.HostReadsHaveNoSideEffect : Prop :=
  ∀ (s : State) (h : Nat) (r : HostReg) (p : HostPort),
    s.nextMove = .read h r → s.hosts[h]? = some p →
    step s = .next { s with
      schedule := s.schedule.tail
      hosts := s.hosts.set h { p with reads := p.reads ++
        [(r, match r with
          | .result => s.result
          | .resultValid => s.resultValid.setWidth 8
          | .lutReady => s.lutReady.setWidth 8)] } }

/-- R15, R33: a host issues the next command of its program at the end of the issue order; nothing
else changes. That the issue position is kept beside `cpos` is the model's reading
(notes/assumptions/5.md), and that the command queues whatever is pending already rests on the
model's unbounded queue (notes/assumptions/9.md). -/
def Obligations.HostIssuesItsNextCommand : Prop :=
  ∀ (s : State) (h : Nat) (p : HostPort) (w : CmdWord),
    s.nextMove = .issue h → s.hosts[h]? = some p → p.program[p.issued]? = some w →
    step s = .next { s with
      schedule := s.schedule.tail
      pending := s.pending ++ [⟨h, w⟩]
      hosts := s.hosts.set h { p with issued := p.issued + 1 } }

/-- R76: a host issues again the oldest of its commands a reset discarded; nothing else changes. The
list of discarded commands and its order are the model's (notes/assumptions/7.md), and that the
command queues whatever is pending already rests on the model's unbounded queue
(notes/assumptions/9.md). -/
def Obligations.HostReissuesDiscardedCommand : Prop :=
  ∀ (s : State) (h : Nat) (p : HostPort) (w : CmdWord) (rest : List CmdWord),
    s.nextMove = .reissue h → s.hosts[h]? = some p → p.discarded = w :: rest →
    step s = .next { s with
      schedule := s.schedule.tail
      pending := s.pending ++ [⟨h, w⟩]
      hosts := s.hosts.set h { p with discarded := rest } }

/-- R86, R15: `cpos` equals the program's length exactly when the host's program has ended, and then
every command of it has been answered and none was lost. It holds under the model's reading of `cpos`
as the number of completed commands (notes/assumptions/5.md; 95_test_vectors.md's P4r counts
otherwise), and the clause about discarded commands is about the model's list of them
(notes/assumptions/7.md). -/
def Obligations.CposAtLengthMeansProgramEnded : Prop :=
  ∀ (s : State) (h : Nat) (p : HostPort), HostInv s → s.hosts[h]? = some p →
    (p.cpos = p.program.length ↔ s.programEnded h) ∧
    (p.cpos = p.program.length →
      s.responsesTo h = p.program.length ∧ p.discarded = [] ∧ s.pendingOf h = [])

/-- R70, R80: no command is stuck for ever. From any state that meets the table's invariant, with no
moves scheduled, every pending command completes, in issue order, with the value the rules give it
to the host that issued it, within one step for each pending command and each build step left. That
the engine and the build go on when nothing is scheduled is the model's choice
(notes/assumptions/6.md). -/
def Obligations.EveryPendingCommandCompletes : Prop :=
  ∀ s : State, TableInv s → s.schedule = [] →
    ∃ t : State,
      run (s.pending.length + (65536 - s.buildIdx.toNat)) s = .next t ∧
      t.pending = [] ∧ t.lutReady = 1#1 ∧
      t.responses = s.responses ++ s.pending.map Pending.ruleResponse

/-- R22: `LUT_IMPL` is no register: no step changes it. -/
def Obligations.ParameterNeverChanges : Prop :=
  ∀ s t : State, step s = .next t → t.lutImpl = s.lutImpl

/-! ## The assembler -/

/-- R45, R46: a literal in its mnemonic's range becomes `OPERAND = v mod 2^64`; outside it the line
is refused. For `COUNTBITS` with a negative literal the operand is the sign extension of the 32-bit
pattern. -/
def Obligations.LiteralBecomesOperand : Prop :=
  ∀ (op : Op) (v : Int),
    (let lo : Int := if op = .countbits then -2 ^ 31 else -2 ^ 63
     let hi : Int := if op = .countbits then 2 ^ 32 - 1 else 2 ^ 64 - 1
     (lo ≤ v ∧ v ≤ hi →
       ∃ w : CmdWord, assembleSource ⟨op, v⟩ = .ok w ∧ (decode w).op = op ∧
         ((decode w).operand.toNat : Int) = v % 2 ^ 64 ∧
         (op = .countbits → v < 0 →
           (decode w).operand = (BitVec.ofInt 32 v).signExtend 64)) ∧
     (¬ (lo ≤ v ∧ v ≤ hi) → assembleSource ⟨op, v⟩ = .error .literalOutOfRange))

/-- R47, R46: the line a command word disassembles to assembles to the word again, but for
`COUNTBITS` with a 1-bit in the ignored bits 63:32, whose line holds a literal out of the mnemonic's
range. The spelling of the line (upper case, no `_`) is the model's choice
(notes/assumptions/8.md). -/
def Obligations.DisassemblyAssemblesBack : Prop :=
  ∀ w : CmdWord,
    ((decode w).op ≠ .countbits ∨ (decode w).operand.toNat < 2 ^ 32 →
      assembleLine (disassemble w) = .ok w) ∧
    ((decode w).op = .countbits ∧ 2 ^ 32 ≤ (decode w).operand.toNat →
      assembleLine (disassemble w) = .error .literalOutOfRange)

/-! ## Further statements -/

/-- A host's move that cannot be made changes nothing but the schedule: an issue by a host with no
command left, a reissue by a host that lost none, and any move of a host that does not exist. The
spec has no such move; that it shows as such a step is the model's choice
(notes/assumptions/6.md). -/
def Obligations.HostMoveWithoutEffect : Prop :=
  ∀ (s : State) (h : Nat),
    (s.nextMove = .issue h → (∀ p : HostPort, s.hosts[h]? = some p → p.program.length ≤ p.issued) →
      step s = .next { s with schedule := s.schedule.tail }) ∧
    (s.nextMove = .reissue h → (∀ p : HostPort, s.hosts[h]? = some p → p.discarded = []) →
      step s = .next { s with schedule := s.schedule.tail }) ∧
    ∀ r : HostReg, s.nextMove = .read h r → s.hosts[h]? = none →
      step s = .next { s with schedule := s.schedule.tail }

/-- R70, R80, with moves still scheduled: if none of them is a reset, every command pending, and then
every command the hosts issue over the schedule (`State.issuedLater`: by R15 and R33 each host's own
in its program's order, in the order of the moves), completes in issue order with the value the rules
give it, to its issuer, within a bounded number of steps; and no other command completes. That the
engine and the build go on once the schedule is used up is the model's choice
(notes/assumptions/6.md), that commands issued meanwhile are always queued rests on the model's
unbounded queue (notes/assumptions/9.md), and the issue position beside `cpos` and the list of
discarded commands are the model's (notes/assumptions/5.md, notes/assumptions/7.md). -/
def Obligations.PendingCompleteBehindAnySchedule : Prop :=
  ∀ s : State, TableInv s → Move.reset ∉ s.schedule →
    ∃ (k : Nat) (t : State),
      k ≤ 2 * s.schedule.length + s.pending.length + (65536 - s.buildIdx.toNat) ∧
      run k s = .next t ∧ t.schedule = [] ∧ t.pending = [] ∧ t.lutReady = 1#1 ∧
      t.responses = s.responses ++ (s.pending ++ s.issuedLater).map Pending.ruleResponse
end

