-- ==== Sys2Proof/Laws/State.lean ====
section
/-!
SUPPORT. What each record update of the state leaves in each field, so that no later proof unfolds
one.
-/

namespace Sys2Proof.Machine

/-! ## Writing the result -/

@[simp] theorem State.setResult_lutImpl (s : State) (v : Byte) :
    (s.setResult v).lutImpl = s.lutImpl := rfl
@[simp] theorem State.setResult_lut (s : State) (v : Byte) : (s.setResult v).lut = s.lut := rfl
@[simp] theorem State.setResult_lutReady (s : State) (v : Byte) :
    (s.setResult v).lutReady = s.lutReady := rfl
@[simp] theorem State.setResult_buildIdx (s : State) (v : Byte) :
    (s.setResult v).buildIdx = s.buildIdx := rfl
@[simp] theorem State.setResult_result (s : State) (v : Byte) : (s.setResult v).result = v := rfl
@[simp] theorem State.setResult_resultValid (s : State) (v : Byte) :
    (s.setResult v).resultValid = 1#1 := rfl
@[simp] theorem State.setResult_lutDraw (s : State) (v : Byte) :
    (s.setResult v).lutDraw = s.lutDraw := rfl
@[simp] theorem State.setResult_pending (s : State) (v : Byte) :
    (s.setResult v).pending = s.pending := rfl
@[simp] theorem State.setResult_responses (s : State) (v : Byte) :
    (s.setResult v).responses = s.responses := rfl
@[simp] theorem State.setResult_hosts (s : State) (v : Byte) :
    (s.setResult v).hosts = s.hosts := rfl
@[simp] theorem State.setResult_schedule (s : State) (v : Byte) :
    (s.setResult v).schedule = s.schedule := rfl

/-! ## Taking a move off the schedule -/

@[simp] theorem State.popMove_lutImpl (s : State) : (s.popMove).lutImpl = s.lutImpl := rfl
@[simp] theorem State.popMove_lut (s : State) : (s.popMove).lut = s.lut := rfl
@[simp] theorem State.popMove_lutReady (s : State) : (s.popMove).lutReady = s.lutReady := rfl
@[simp] theorem State.popMove_buildIdx (s : State) : (s.popMove).buildIdx = s.buildIdx := rfl
@[simp] theorem State.popMove_result (s : State) : (s.popMove).result = s.result := rfl
@[simp] theorem State.popMove_resultValid (s : State) :
    (s.popMove).resultValid = s.resultValid := rfl
@[simp] theorem State.popMove_lutDraw (s : State) : (s.popMove).lutDraw = s.lutDraw := rfl
@[simp] theorem State.popMove_pending (s : State) : (s.popMove).pending = s.pending := rfl
@[simp] theorem State.popMove_responses (s : State) : (s.popMove).responses = s.responses := rfl
@[simp] theorem State.popMove_hosts (s : State) : (s.popMove).hosts = s.hosts := rfl
@[simp] theorem State.popMove_schedule (s : State) : (s.popMove).schedule = s.schedule.tail := rfl

/-! ## Writing a table entry -/

@[simp] theorem State.memWrite_lutImpl (s : State) (a : Subword) (v : Bit) :
    (s.memWrite a v).lutImpl = s.lutImpl := rfl
@[simp] theorem State.memWrite_lut (s : State) (a : Subword) (v : Bit) :
    (s.memWrite a v).lut = s.lut.write s.lutImpl a.toNat v := rfl
@[simp] theorem State.memWrite_lutReady (s : State) (a : Subword) (v : Bit) :
    (s.memWrite a v).lutReady = s.lutReady := rfl
@[simp] theorem State.memWrite_buildIdx (s : State) (a : Subword) (v : Bit) :
    (s.memWrite a v).buildIdx = s.buildIdx := rfl
@[simp] theorem State.memWrite_result (s : State) (a : Subword) (v : Bit) :
    (s.memWrite a v).result = s.result := rfl
@[simp] theorem State.memWrite_resultValid (s : State) (a : Subword) (v : Bit) :
    (s.memWrite a v).resultValid = s.resultValid := rfl
@[simp] theorem State.memWrite_lutDraw (s : State) (a : Subword) (v : Bit) :
    (s.memWrite a v).lutDraw = s.lutDraw := rfl
@[simp] theorem State.memWrite_pending (s : State) (a : Subword) (v : Bit) :
    (s.memWrite a v).pending = s.pending := rfl
@[simp] theorem State.memWrite_responses (s : State) (a : Subword) (v : Bit) :
    (s.memWrite a v).responses = s.responses := rfl
@[simp] theorem State.memWrite_hosts (s : State) (a : Subword) (v : Bit) :
    (s.memWrite a v).hosts = s.hosts := rfl
@[simp] theorem State.memWrite_schedule (s : State) (a : Subword) (v : Bit) :
    (s.memWrite a v).schedule = s.schedule := rfl

/-! ## Advancing the table build -/

@[simp] theorem State.buildAdvance_lutImpl (s : State) : (s.buildAdvance).lutImpl = s.lutImpl := rfl
@[simp] theorem State.buildAdvance_lut (s : State) : (s.buildAdvance).lut = s.lut := rfl
@[simp] theorem State.buildAdvance_lutReady (s : State) :
    (s.buildAdvance).lutReady = if s.buildIdx + 1#17 = 65536#17 then 1#1 else s.lutReady := rfl
@[simp] theorem State.buildAdvance_buildIdx (s : State) :
    (s.buildAdvance).buildIdx = s.buildIdx + 1#17 := rfl
@[simp] theorem State.buildAdvance_result (s : State) : (s.buildAdvance).result = s.result := rfl
@[simp] theorem State.buildAdvance_resultValid (s : State) :
    (s.buildAdvance).resultValid = s.resultValid := rfl
@[simp] theorem State.buildAdvance_lutDraw (s : State) : (s.buildAdvance).lutDraw = s.lutDraw := rfl
@[simp] theorem State.buildAdvance_pending (s : State) : (s.buildAdvance).pending = s.pending := rfl
@[simp] theorem State.buildAdvance_responses (s : State) :
    (s.buildAdvance).responses = s.responses := rfl
@[simp] theorem State.buildAdvance_hosts (s : State) : (s.buildAdvance).hosts = s.hosts := rfl
@[simp] theorem State.buildAdvance_schedule (s : State) :
    (s.buildAdvance).schedule = s.schedule := rfl

/-! ## Queueing a command -/

@[simp] theorem State.enqueue_lutImpl (s : State) (h : Nat) (w : CmdWord) :
    (s.enqueue h w).lutImpl = s.lutImpl := rfl
@[simp] theorem State.enqueue_lut (s : State) (h : Nat) (w : CmdWord) :
    (s.enqueue h w).lut = s.lut := rfl
@[simp] theorem State.enqueue_lutReady (s : State) (h : Nat) (w : CmdWord) :
    (s.enqueue h w).lutReady = s.lutReady := rfl
@[simp] theorem State.enqueue_buildIdx (s : State) (h : Nat) (w : CmdWord) :
    (s.enqueue h w).buildIdx = s.buildIdx := rfl
@[simp] theorem State.enqueue_result (s : State) (h : Nat) (w : CmdWord) :
    (s.enqueue h w).result = s.result := rfl
@[simp] theorem State.enqueue_resultValid (s : State) (h : Nat) (w : CmdWord) :
    (s.enqueue h w).resultValid = s.resultValid := rfl
@[simp] theorem State.enqueue_lutDraw (s : State) (h : Nat) (w : CmdWord) :
    (s.enqueue h w).lutDraw = s.lutDraw := rfl
@[simp] theorem State.enqueue_pending (s : State) (h : Nat) (w : CmdWord) :
    (s.enqueue h w).pending = s.pending ++ [⟨h, w⟩] := rfl
@[simp] theorem State.enqueue_responses (s : State) (h : Nat) (w : CmdWord) :
    (s.enqueue h w).responses = s.responses := rfl
@[simp] theorem State.enqueue_hosts (s : State) (h : Nat) (w : CmdWord) :
    (s.enqueue h w).hosts = s.hosts := rfl
@[simp] theorem State.enqueue_schedule (s : State) (h : Nat) (w : CmdWord) :
    (s.enqueue h w).schedule = s.schedule := rfl

/-! ## Setting a host's record -/

@[simp] theorem State.setHost_lutImpl (s : State) (h : Nat) (p : HostPort) :
    (s.setHost h p).lutImpl = s.lutImpl := rfl
@[simp] theorem State.setHost_lut (s : State) (h : Nat) (p : HostPort) :
    (s.setHost h p).lut = s.lut := rfl
@[simp] theorem State.setHost_lutReady (s : State) (h : Nat) (p : HostPort) :
    (s.setHost h p).lutReady = s.lutReady := rfl
@[simp] theorem State.setHost_buildIdx (s : State) (h : Nat) (p : HostPort) :
    (s.setHost h p).buildIdx = s.buildIdx := rfl
@[simp] theorem State.setHost_result (s : State) (h : Nat) (p : HostPort) :
    (s.setHost h p).result = s.result := rfl
@[simp] theorem State.setHost_resultValid (s : State) (h : Nat) (p : HostPort) :
    (s.setHost h p).resultValid = s.resultValid := rfl
@[simp] theorem State.setHost_lutDraw (s : State) (h : Nat) (p : HostPort) :
    (s.setHost h p).lutDraw = s.lutDraw := rfl
@[simp] theorem State.setHost_pending (s : State) (h : Nat) (p : HostPort) :
    (s.setHost h p).pending = s.pending := rfl
@[simp] theorem State.setHost_responses (s : State) (h : Nat) (p : HostPort) :
    (s.setHost h p).responses = s.responses := rfl
@[simp] theorem State.setHost_hosts (s : State) (h : Nat) (p : HostPort) :
    (s.setHost h p).hosts = s.hosts.set h p := rfl
@[simp] theorem State.setHost_schedule (s : State) (h : Nat) (p : HostPort) :
    (s.setHost h p).schedule = s.schedule := rfl

/-! ## Loading programs -/

@[simp] theorem State.load_lutImpl (s : State) (hs : List HostPort) (ms : List Move) :
    (s.load hs ms).lutImpl = s.lutImpl := rfl
@[simp] theorem State.load_lut (s : State) (hs : List HostPort) (ms : List Move) :
    (s.load hs ms).lut = s.lut := rfl
@[simp] theorem State.load_lutReady (s : State) (hs : List HostPort) (ms : List Move) :
    (s.load hs ms).lutReady = s.lutReady := rfl
@[simp] theorem State.load_buildIdx (s : State) (hs : List HostPort) (ms : List Move) :
    (s.load hs ms).buildIdx = s.buildIdx := rfl
@[simp] theorem State.load_result (s : State) (hs : List HostPort) (ms : List Move) :
    (s.load hs ms).result = s.result := rfl
@[simp] theorem State.load_resultValid (s : State) (hs : List HostPort) (ms : List Move) :
    (s.load hs ms).resultValid = s.resultValid := rfl
@[simp] theorem State.load_lutDraw (s : State) (hs : List HostPort) (ms : List Move) :
    (s.load hs ms).lutDraw = s.lutDraw := rfl
@[simp] theorem State.load_pending (s : State) (hs : List HostPort) (ms : List Move) :
    (s.load hs ms).pending = s.pending := rfl
@[simp] theorem State.load_responses (s : State) (hs : List HostPort) (ms : List Move) :
    (s.load hs ms).responses = s.responses := rfl
@[simp] theorem State.load_hosts (s : State) (hs : List HostPort) (ms : List Move) :
    (s.load hs ms).hosts = hs := rfl
@[simp] theorem State.load_schedule (s : State) (hs : List HostPort) (ms : List Move) :
    (s.load hs ms).schedule = ms := rfl

/-! ## Discarding the pending commands -/

@[simp] theorem State.discardPending_lutImpl (s : State) :
    s.discardPending.lutImpl = s.lutImpl := rfl
@[simp] theorem State.discardPending_lut (s : State) :
    s.discardPending.lut = s.lut := rfl
@[simp] theorem State.discardPending_lutReady (s : State) :
    s.discardPending.lutReady = s.lutReady := rfl
@[simp] theorem State.discardPending_buildIdx (s : State) :
    s.discardPending.buildIdx = s.buildIdx := rfl
@[simp] theorem State.discardPending_result (s : State) :
    s.discardPending.result = s.result := rfl
@[simp] theorem State.discardPending_resultValid (s : State) :
    s.discardPending.resultValid = s.resultValid := rfl
@[simp] theorem State.discardPending_lutDraw (s : State) :
    s.discardPending.lutDraw = s.lutDraw := rfl
@[simp] theorem State.discardPending_pending (s : State) :
    s.discardPending.pending = [] := rfl
@[simp] theorem State.discardPending_responses (s : State) :
    s.discardPending.responses = s.responses := rfl
@[simp] theorem State.discardPending_schedule (s : State) :
    s.discardPending.schedule = s.schedule := rfl

/-! ## Holding a command -/

@[simp] theorem State.hold_eq (s : State) : s.hold = s := rfl

/-! ## Responding -/

@[simp] theorem State.respond_lutImpl (s : State) (v : Byte) : (s.respond v).lutImpl = s.lutImpl := by
  unfold State.respond; split <;> rfl
@[simp] theorem State.respond_lut (s : State) (v : Byte) : (s.respond v).lut = s.lut := by
  unfold State.respond; split <;> rfl
@[simp] theorem State.respond_lutReady (s : State) (v : Byte) : (s.respond v).lutReady = s.lutReady := by
  unfold State.respond; split <;> rfl
@[simp] theorem State.respond_buildIdx (s : State) (v : Byte) : (s.respond v).buildIdx = s.buildIdx := by
  unfold State.respond; split <;> rfl
@[simp] theorem State.respond_result (s : State) (v : Byte) : (s.respond v).result = s.result := by
  unfold State.respond; split <;> rfl
@[simp] theorem State.respond_resultValid (s : State) (v : Byte) : (s.respond v).resultValid = s.resultValid := by
  unfold State.respond; split <;> rfl
@[simp] theorem State.respond_lutDraw (s : State) (v : Byte) : (s.respond v).lutDraw = s.lutDraw := by
  unfold State.respond; split <;> rfl
@[simp] theorem State.respond_schedule (s : State) (v : Byte) : (s.respond v).schedule = s.schedule := by
  unfold State.respond; split <;> rfl

theorem State.respond_of_nil (s : State) (v : Byte) (h : s.pending = []) : s.respond v = s := by
  simp [State.respond, h]

theorem State.respond_of_cons (s : State) (v : Byte) (c : Pending) (rest : List Pending)
    (h : s.pending = c :: rest) :
    s.respond v =
      { s with
        pending := rest
        responses := s.responses ++ [⟨c.host, v⟩]
        hosts := s.hosts.modify c.host HostPort.advance } := by
  simp [State.respond, h]

/-! ## Completing a command -/

@[simp] theorem State.complete_lutImpl (s : State) (v : Byte) : (s.complete v).lutImpl = s.lutImpl := by
  simp [State.complete]
@[simp] theorem State.complete_lut (s : State) (v : Byte) : (s.complete v).lut = s.lut := by
  simp [State.complete]
@[simp] theorem State.complete_lutReady (s : State) (v : Byte) : (s.complete v).lutReady = s.lutReady := by
  simp [State.complete]
@[simp] theorem State.complete_buildIdx (s : State) (v : Byte) : (s.complete v).buildIdx = s.buildIdx := by
  simp [State.complete]
@[simp] theorem State.complete_result (s : State) (v : Byte) : (s.complete v).result = v := by
  simp [State.complete]
@[simp] theorem State.complete_resultValid (s : State) (v : Byte) : (s.complete v).resultValid = 1#1 := by
  simp [State.complete]
@[simp] theorem State.complete_lutDraw (s : State) (v : Byte) : (s.complete v).lutDraw = s.lutDraw := by
  simp [State.complete]
@[simp] theorem State.complete_schedule (s : State) (v : Byte) : (s.complete v).schedule = s.schedule := by
  simp [State.complete]

/-- The pending commands after a completion: the oldest one is gone. -/
@[simp] theorem State.complete_pending (s : State) (v : Byte) :
    (s.complete v).pending = s.pending.tail := by
  cases h : s.pending with
  | nil => simp [State.complete, State.respond, h]
  | cons c rest => simp [State.complete, State.respond, h]

theorem State.complete_responses_of_cons (s : State) (v : Byte) (c : Pending)
    (rest : List Pending) (h : s.pending = c :: rest) :
    (s.complete v).responses = s.responses ++ [⟨c.host, v⟩] := by
  simp [State.complete, State.respond, h]

theorem State.complete_hosts_of_cons (s : State) (v : Byte) (c : Pending)
    (rest : List Pending) (h : s.pending = c :: rest) :
    (s.complete v).hosts = s.hosts.modify c.host HostPort.advance := by
  simp [State.complete, State.respond, h]

/-! ## Advancing a host -/

@[simp] theorem HostPort.advance_cpos (p : HostPort) : p.advance.cpos = p.cpos + 1 := rfl
@[simp] theorem HostPort.advance_issued (p : HostPort) : p.advance.issued = p.issued := rfl
@[simp] theorem HostPort.advance_program (p : HostPort) : p.advance.program = p.program := rfl
@[simp] theorem HostPort.advance_discarded (p : HostPort) : p.advance.discarded = p.discarded := rfl
@[simp] theorem HostPort.advance_reads (p : HostPort) : p.advance.reads = p.reads := rfl

/-! ## The hosts' moves -/

@[simp] theorem State.hostRead_lutImpl (s : State) (h : Nat) (r : HostReg) :
    (s.hostRead h r).lutImpl = s.lutImpl := rfl
@[simp] theorem State.hostRead_lut (s : State) (h : Nat) (r : HostReg) :
    (s.hostRead h r).lut = s.lut := rfl
@[simp] theorem State.hostRead_lutReady (s : State) (h : Nat) (r : HostReg) :
    (s.hostRead h r).lutReady = s.lutReady := rfl
@[simp] theorem State.hostRead_buildIdx (s : State) (h : Nat) (r : HostReg) :
    (s.hostRead h r).buildIdx = s.buildIdx := rfl
@[simp] theorem State.hostRead_result (s : State) (h : Nat) (r : HostReg) :
    (s.hostRead h r).result = s.result := rfl
@[simp] theorem State.hostRead_resultValid (s : State) (h : Nat) (r : HostReg) :
    (s.hostRead h r).resultValid = s.resultValid := rfl
@[simp] theorem State.hostRead_lutDraw (s : State) (h : Nat) (r : HostReg) :
    (s.hostRead h r).lutDraw = s.lutDraw := rfl
@[simp] theorem State.hostRead_pending (s : State) (h : Nat) (r : HostReg) :
    (s.hostRead h r).pending = s.pending := rfl
@[simp] theorem State.hostRead_responses (s : State) (h : Nat) (r : HostReg) :
    (s.hostRead h r).responses = s.responses := rfl
@[simp] theorem State.hostRead_schedule (s : State) (h : Nat) (r : HostReg) :
    (s.hostRead h r).schedule = s.schedule := rfl

@[simp] theorem State.hostIssue_lutImpl (s : State) (h : Nat) :
    (s.hostIssue h).lutImpl = s.lutImpl := by
  unfold State.hostIssue; split <;> [rfl; (split <;> rfl)]
@[simp] theorem State.hostIssue_lut (s : State) (h : Nat) :
    (s.hostIssue h).lut = s.lut := by
  unfold State.hostIssue; split <;> [rfl; (split <;> rfl)]
@[simp] theorem State.hostIssue_lutReady (s : State) (h : Nat) :
    (s.hostIssue h).lutReady = s.lutReady := by
  unfold State.hostIssue; split <;> [rfl; (split <;> rfl)]
@[simp] theorem State.hostIssue_buildIdx (s : State) (h : Nat) :
    (s.hostIssue h).buildIdx = s.buildIdx := by
  unfold State.hostIssue; split <;> [rfl; (split <;> rfl)]
@[simp] theorem State.hostIssue_result (s : State) (h : Nat) :
    (s.hostIssue h).result = s.result := by
  unfold State.hostIssue; split <;> [rfl; (split <;> rfl)]
@[simp] theorem State.hostIssue_resultValid (s : State) (h : Nat) :
    (s.hostIssue h).resultValid = s.resultValid := by
  unfold State.hostIssue; split <;> [rfl; (split <;> rfl)]
@[simp] theorem State.hostIssue_lutDraw (s : State) (h : Nat) :
    (s.hostIssue h).lutDraw = s.lutDraw := by
  unfold State.hostIssue; split <;> [rfl; (split <;> rfl)]
@[simp] theorem State.hostIssue_responses (s : State) (h : Nat) :
    (s.hostIssue h).responses = s.responses := by
  unfold State.hostIssue; split <;> [rfl; (split <;> rfl)]
@[simp] theorem State.hostIssue_schedule (s : State) (h : Nat) :
    (s.hostIssue h).schedule = s.schedule := by
  unfold State.hostIssue; split <;> [rfl; (split <;> rfl)]

@[simp] theorem State.hostReissue_lutImpl (s : State) (h : Nat) :
    (s.hostReissue h).lutImpl = s.lutImpl := by
  unfold State.hostReissue; split <;> [rfl; (split <;> rfl)]
@[simp] theorem State.hostReissue_lut (s : State) (h : Nat) :
    (s.hostReissue h).lut = s.lut := by
  unfold State.hostReissue; split <;> [rfl; (split <;> rfl)]
@[simp] theorem State.hostReissue_lutReady (s : State) (h : Nat) :
    (s.hostReissue h).lutReady = s.lutReady := by
  unfold State.hostReissue; split <;> [rfl; (split <;> rfl)]
@[simp] theorem State.hostReissue_buildIdx (s : State) (h : Nat) :
    (s.hostReissue h).buildIdx = s.buildIdx := by
  unfold State.hostReissue; split <;> [rfl; (split <;> rfl)]
@[simp] theorem State.hostReissue_result (s : State) (h : Nat) :
    (s.hostReissue h).result = s.result := by
  unfold State.hostReissue; split <;> [rfl; (split <;> rfl)]
@[simp] theorem State.hostReissue_resultValid (s : State) (h : Nat) :
    (s.hostReissue h).resultValid = s.resultValid := by
  unfold State.hostReissue; split <;> [rfl; (split <;> rfl)]
@[simp] theorem State.hostReissue_lutDraw (s : State) (h : Nat) :
    (s.hostReissue h).lutDraw = s.lutDraw := by
  unfold State.hostReissue; split <;> [rfl; (split <;> rfl)]
@[simp] theorem State.hostReissue_responses (s : State) (h : Nat) :
    (s.hostReissue h).responses = s.responses := by
  unfold State.hostReissue; split <;> [rfl; (split <;> rfl)]
@[simp] theorem State.hostReissue_schedule (s : State) (h : Nat) :
    (s.hostReissue h).schedule = s.schedule := by
  unfold State.hostReissue; split <;> [rfl; (split <;> rfl)]

/-! ## Reset -/

@[simp] theorem State.applyReset_lutImpl (s : State) : s.applyReset.lutImpl = s.lutImpl := by
  simp only [State.applyReset, State.discardPending_lutImpl, State.resetEngine]; split <;> rfl
@[simp] theorem State.applyReset_responses (s : State) : s.applyReset.responses = s.responses := by
  simp only [State.applyReset, State.discardPending_responses, State.resetEngine]; split <;> rfl
@[simp] theorem State.applyReset_schedule (s : State) : s.applyReset.schedule = s.schedule := by
  simp only [State.applyReset, State.discardPending_schedule, State.resetEngine]; split <;> rfl
@[simp] theorem State.applyReset_pending (s : State) : s.applyReset.pending = [] := rfl
@[simp] theorem State.applyReset_result (s : State) : s.applyReset.result = 0x00#8 := by
  simp only [State.applyReset, State.discardPending_result, State.resetEngine]; split <;> rfl
@[simp] theorem State.applyReset_resultValid (s : State) : s.applyReset.resultValid = 0#1 := by
  simp only [State.applyReset, State.discardPending_resultValid, State.resetEngine]; split <;> rfl

end Sys2Proof.Machine
end

