-- ==== Sys2Proof/Laws/Memory.lean ====
section
/-!
SUPPORT. The lookup table: read after write, and that every operation keeps the canonical form.
-/

namespace Sys2Proof.Machine

namespace Memory

theorem mem_insert {m : Memory} {a : Nat} {v : Bit} {e : Nat × Bit} (h : e ∈ insert m a v) :
    e = (a, v) ∨ e ∈ m := by
  induction m with
  | nil => simpa [insert] using h
  | cons f m ih =>
    obtain ⟨b, w⟩ := f
    simp only [insert] at h
    split at h
    · simpa using h
    · split at h
      · rcases List.mem_cons.mp h with h | h
        · exact .inl h
        · exact .inr (List.mem_cons_of_mem _ h)
      · rcases List.mem_cons.mp h with h | h
        · exact .inr (h ▸ List.mem_cons_self)
        · exact (ih h).imp id (List.mem_cons_of_mem _)

theorem insert_sorted {m : Memory} (a : Nat) (v : Bit)
    (h : m.Pairwise fun e f => e.1 < f.1) : (insert m a v).Pairwise fun e f => e.1 < f.1 := by
  induction m with
  | nil => simp [insert]
  | cons f m ih =>
    obtain ⟨b, w⟩ := f
    obtain ⟨hb, hm⟩ := List.pairwise_cons.mp h
    simp only [insert]
    split
    · next hlt =>
      refine List.pairwise_cons.mpr ⟨fun e he => ?_, h⟩
      rcases List.mem_cons.mp he with rfl | he
      · exact hlt
      · exact hlt.trans (hb e he)
    · split
      · next heq => exact List.pairwise_cons.mpr ⟨fun e he => heq ▸ hb e he, hm⟩
      · next hge hne =>
        refine List.pairwise_cons.mpr ⟨fun e he => ?_, ih hm⟩
        rcases mem_insert he with rfl | he
        · simp only; omega
        · exact hb e he

/-- Every write keeps the canonical form. -/
theorem wf_write {impl : LutImpl} {m : Memory} (a : Subword) (v : Bit) (h : wf impl m) :
    wf impl (write impl m a.toNat v) := by
  obtain ⟨hs, he⟩ := h
  unfold write
  split
  · exact ⟨hs.sublist List.filter_sublist, fun e hm => he e (List.mem_of_mem_filter hm)⟩
  · next hv =>
    refine ⟨insert_sorted _ _ hs, fun e hm => ?_⟩
    rcases mem_insert hm with rfl | hm
    · exact ⟨a.isLt, hv⟩
    · exact he e hm

theorem read_insert (impl : LutImpl) (m : Memory) (a b : Nat) (v : Bit) :
    read impl (insert m a v) b = if b = a then some v else read impl m b := by
  induction m with
  | nil => rfl
  | cons f m ih =>
    obtain ⟨c, w⟩ := f
    simp only [insert]
    split
    · simp only [read]
    · split
      · next hc => subst hc; simp only [read]; split <;> rfl
      · simp only [read, ih]
        split
        · next hne hbc => rw [if_neg (by omega)]
        · rfl

theorem read_erase (impl : LutImpl) (m : Memory) (a b : Nat) :
    read impl (erase m a) b = if b = a then unlisted impl b else read impl m b := by
  induction m with
  | nil => simp [erase, read]
  | cons f m ih =>
    obtain ⟨c, w⟩ := f
    have ih' : read impl (m.filter fun e => decide (e.1 ≠ a)) b =
        if b = a then unlisted impl b else read impl m b := ih
    by_cases hc : c = a
    · subst hc
      simp only [erase, ne_eq, not_true_eq_false, decide_false, Bool.false_eq_true,
        not_false_eq_true, List.filter_cons_of_neg, read]
      simp only [ne_eq] at ih'
      rw [ih']
      split <;> rfl
    · have : decide (c ≠ a) = true := by simpa using hc
      simp only [erase, List.filter_cons, this, if_true, read, ih']
      split
      · next hbc => rw [if_neg (by omega)]
      · rfl

/-- A read after a write: the address written reads as the value written, every other address as
before. -/
theorem read_write (impl : LutImpl) (m : Memory) (a b : Nat) (v : Bit) :
    read impl (write impl m a v) b = if b = a then some v else read impl m b := by
  unfold write
  split
  · next h => rw [read_erase]; split
              · next hb => rw [hb, h]
              · rfl
  · exact read_insert impl m a b v

end Memory

/-- A table read sees only the parameter, the entries and the free value's counter. -/
theorem State.memRead_congr {s t : State} (hi : t.lutImpl = s.lutImpl) (hl : t.lut = s.lut)
    (hd : t.lutDraw = s.lutDraw) (a : Subword) : t.memRead a = s.memRead a := by
  simp [State.memRead, hi, hl, hd]

/-- An entry with a value reads as that value. -/
theorem State.memRead_of_read {s : State} {a : Subword} {v : Bit}
    (h : s.lut.read s.lutImpl a.toNat = some v) : s.memRead a = v := by
  simp [State.memRead, h]

/-- A table read after a table write. -/
theorem State.memRead_memWrite (s : State) (a b : Subword) (v : Bit) :
    (s.memWrite a v).memRead b = if b = a then v else s.memRead b := by
  simp only [State.memRead, State.memWrite, Memory.read_write]
  by_cases h : b = a
  · simp [h]
  · have : b.toNat ≠ a.toNat := fun hn => h (BitVec.eq_of_toNat_eq hn)
    simp [h, this]

end Sys2Proof.Machine
end

