-- ==== Sys2Proof/Laws/Ops.lean ====
section
/-!
SUPPORT. What a command, a build step and a step of the machine can do, said once.
-/

namespace Sys2Proof.Machine

/-! ## Commands -/

/-- The meaning of each command that is not held, as one completion. -/
theorem exec_countbits (x : Word64) (s : State) :
    exec (.countbits x) s = .next (s.complete (BitVec.ofNat 8 (countBits (countOperand x)))) := rfl

theorem exec_parity (x : Word64) (s : State) :
    exec (.parity x) s = .next (s.complete (parityByte (serialParity x))) := rfl

theorem exec_parityXorfold (x : Word64) (s : State) :
    exec (.parityXorfold x) s = .next (s.complete (parityByte (foldParity x))) := rfl

theorem exec_parityCached_of_ready (x : Word64) (s : State) (h : s.lutReady = 1#1) :
    exec (.parityCached x) s = .next (s.complete (parityByte (s.cachedParity x))) := by
  simp [exec, execParityCached, parityOperand, h]

theorem exec_parityCached_of_not_ready (x : Word64) (s : State) (h : s.lutReady ≠ 1#1) :
    exec (.parityCached x) s = .next s := by
  simp [exec, execParityCached, h]

/-- Everything a command can do: it is held and changes nothing, or it completes with a value. -/
theorem exec_cases (i : Instr) (s : State) :
    (s.holds i = true ∧ exec i s = .next s) ∨
      (s.holds i = false ∧ ∃ v, exec i s = .next (s.complete v)) := by
  cases i with
  | countbits x => exact .inr ⟨rfl, _, exec_countbits x s⟩
  | parity x => exact .inr ⟨rfl, _, exec_parity x s⟩
  | parityXorfold x => exact .inr ⟨rfl, _, exec_parityXorfold x s⟩
  | parityCached x =>
    by_cases h : s.lutReady = 1#1
    · exact .inr ⟨by simp [State.holds, h], _, exec_parityCached_of_ready x s h⟩
    · exact .inl ⟨by simp [State.holds, h], exec_parityCached_of_not_ready x s h⟩

/-! ## The table build -/

theorem State.buildEnabled_iff (s : State) :
    s.buildEnabled = true ↔ s.lutImpl = .builtAtReset ∧ s.buildIdx.toNat < 65536 := by
  simp [State.buildEnabled]

theorem State.buildStep_of_enabled (s : State) (h : s.buildEnabled = true) :
    s.buildStep =
      (s.memWrite (s.buildIdx.extractLsb' 0 16)
        (serialParity ((s.buildIdx.extractLsb' 0 16).setWidth 64))).buildAdvance := by
  simp [State.buildStep, h]

theorem State.buildStep_of_not_enabled (s : State) (h : s.buildEnabled = false) :
    s.buildStep = s := by
  simp [State.buildStep, h]

/-- Everything a build step can do: nothing, or write one entry and advance. -/
theorem State.buildStep_cases (s : State) :
    (s.buildEnabled = false ∧ s.buildStep = s) ∨
      (s.buildEnabled = true ∧ s.buildStep =
        (s.memWrite (s.buildIdx.extractLsb' 0 16)
          (serialParity ((s.buildIdx.extractLsb' 0 16).setWidth 64))).buildAdvance) := by
  cases h : s.buildEnabled with
  | false => exact .inl ⟨rfl, s.buildStep_of_not_enabled h⟩
  | true => exact .inr ⟨rfl, s.buildStep_of_enabled h⟩

/-! ## The hosts -/

/-- Everything an issue can do: nothing, or queue the host's next command. -/
theorem State.hostIssue_cases (s : State) (h : Nat) :
    s.hostIssue h = s ∨
      ∃ p w, s.hosts[h]? = some p ∧ p.program[p.issued]? = some w ∧
        s.hostIssue h = (s.enqueue h w).setHost h { p with issued := p.issued + 1 } := by
  unfold State.hostIssue
  cases hp : s.hosts[h]? with
  | none => exact .inl rfl
  | some p =>
    cases hw : p.program[p.issued]? with
    | none => simp [hw]
    | some w => exact .inr ⟨p, w, rfl, hw, by simp [hw]⟩

/-- Everything a reissue can do: nothing, or queue the oldest discarded command. -/
theorem State.hostReissue_cases (s : State) (h : Nat) :
    s.hostReissue h = s ∨
      ∃ p w rest, s.hosts[h]? = some p ∧ p.discarded = w :: rest ∧
        s.hostReissue h = (s.enqueue h w).setHost h { p with discarded := rest } := by
  unfold State.hostReissue
  cases hp : s.hosts[h]? with
  | none => exact .inl rfl
  | some p =>
    cases hw : p.discarded with
    | nil => simp [hw]
    | cons w rest => exact .inr ⟨p, w, rest, rfl, hw, by simp [hw]⟩

/-! ## What the hosts have still to issue -/

@[simp] theorem HostPort.advance_unissued (p : HostPort) : p.advance.unissued = p.unissued := rfl

/-- Changing no host's commands leaves what is still to issue. -/
theorem map_unissued_modify (hosts : List HostPort) (h : Nat) (f : HostPort → HostPort)
    (hf : ∀ p, (f p).unissued = p.unissued) :
    (hosts.modify h f).map HostPort.unissued = hosts.map HostPort.unissued := by
  refine List.ext_getElem? fun j => ?_
  rw [List.getElem?_map, List.getElem?_map, List.getElem?_modify]
  split <;> cases hosts[j]? <;> simp [hf]

@[simp] theorem State.hostRead_unissued (s : State) (h : Nat) (r : HostReg) :
    (s.hostRead h r).hosts.map HostPort.unissued = s.hosts.map HostPort.unissued :=
  map_unissued_modify _ _ _ fun _ => rfl

@[simp] theorem State.complete_unissued (s : State) (v : Byte) :
    (s.complete v).hosts.map HostPort.unissued = s.hosts.map HostPort.unissued := by
  cases h : s.pending with
  | nil => rw [State.complete, State.respond_of_nil (s.setResult v) v h, State.setResult_hosts]
  | cons c rest =>
    rw [State.complete_hosts_of_cons s v c rest h]
    exact map_unissued_modify _ _ _ fun _ => rfl

/-- An issue queues what the rules have the move issue. -/
theorem State.hostIssue_issueOrder (s : State) (h : Nat) (ms : List Move) :
    (s.hostIssue h).pending ++ issueOrder ((s.hostIssue h).hosts.map HostPort.unissued) ms =
      s.pending ++ issueOrder (s.hosts.map HostPort.unissued) (.issue h :: ms) := by
  cases hp : s.hosts[h]? with
  | none => simp [State.hostIssue, issueOrder, hp]
  | some p =>
    cases hw : p.program[p.issued]? with
    | none =>
      have : p.program.drop p.issued = [] :=
        List.drop_eq_nil_of_le (List.getElem?_eq_none_iff.mp hw)
      simp [State.hostIssue, issueOrder, hp, hw, HostPort.unissued, this]
    | some w =>
      have : p.program.drop p.issued = w :: p.program.drop (p.issued + 1) := by
        obtain ⟨hlt, rfl⟩ := List.getElem?_eq_some_iff.mp hw
        exact List.drop_eq_getElem_cons hlt
      simp [State.hostIssue, issueOrder, hp, hw, HostPort.unissued, this, List.map_set,
        State.enqueue, State.setHost]

/-- A reissue queues what the rules have the move issue. -/
theorem State.hostReissue_issueOrder (s : State) (h : Nat) (ms : List Move) :
    (s.hostReissue h).pending ++ issueOrder ((s.hostReissue h).hosts.map HostPort.unissued) ms =
      s.pending ++ issueOrder (s.hosts.map HostPort.unissued) (.reissue h :: ms) := by
  cases hp : s.hosts[h]? with
  | none => simp [State.hostReissue, issueOrder, hp]
  | some p =>
    cases hd : p.discarded <;>
      simp [State.hostReissue, issueOrder, hp, hd, HostPort.unissued, List.map_set, State.enqueue,
        State.setHost]

/-! ## Steps -/

@[simp] theorem State.popMove_fetch (s : State) : s.popMove.fetch = s.fetch := rfl

theorem engineStep_of_fetch (s : State) (i : Instr) (h : s.fetch = some i) :
    engineStep s = exec i s := by
  simp [engineStep, h]

theorem engineStep_of_none (s : State) (h : s.fetch = none) : engineStep s = .next s := by
  simp [engineStep, h]

/-- Everything a step can do, by the agent that moves. -/
theorem step_cases (s : State) :
    (∃ h, s.nextMove = .issue h ∧ step s = .next (s.popMove.hostIssue h)) ∨
    (∃ h, s.nextMove = .reissue h ∧ step s = .next (s.popMove.hostReissue h)) ∨
    (∃ h r, s.nextMove = .read h r ∧ step s = .next (s.popMove.hostRead h r)) ∨
    (s.nextMove = .engine ∧ s.fetch = none ∧ step s = .next s.popMove) ∨
    (∃ i, s.nextMove = .engine ∧ s.fetch = some i ∧ s.holds i = true ∧
      step s = .next s.popMove) ∨
    (∃ i v, s.nextMove = .engine ∧ s.fetch = some i ∧ s.holds i = false ∧
      exec i s.popMove = .next (s.popMove.complete v) ∧
      step s = .next (s.popMove.complete v)) ∨
    (s.nextMove = .build ∧ step s = .next s.popMove.buildStep) ∨
    (s.nextMove = .reset ∧ step s = .next s.popMove.applyReset) := by
  cases hm : s.nextMove with
  | issue h => exact .inl ⟨h, rfl, by simp [step, hm]⟩
  | reissue h => exact .inr (.inl ⟨h, rfl, by simp [step, hm]⟩)
  | read h r => exact .inr (.inr (.inl ⟨h, r, rfl, by simp [step, hm]⟩))
  | build => exact .inr (.inr (.inr (.inr (.inr (.inr (.inl ⟨rfl, by simp [step, hm]⟩))))))
  | reset => exact .inr (.inr (.inr (.inr (.inr (.inr (.inr ⟨rfl, by simp [step, hm]⟩))))))
  | engine =>
    have hs : step s = engineStep s.popMove := by simp [step, hm]
    cases hf : s.fetch with
    | none =>
      exact .inr (.inr (.inr (.inl ⟨rfl, rfl, hs.trans (engineStep_of_none _ (by simpa using hf))⟩)))
    | some i =>
      have he : step s = exec i s.popMove :=
        hs.trans (engineStep_of_fetch _ i (by simpa using hf))
      have hh : s.popMove.holds i = s.holds i := by cases i <;> rfl
      rcases exec_cases i s.popMove with ⟨h1, h2⟩ | ⟨h1, v, h2⟩
      · exact .inr (.inr (.inr (.inr (.inl ⟨i, rfl, rfl, hh ▸ h1, he.trans h2⟩))))
      · exact .inr (.inr (.inr (.inr (.inr (.inl
          ⟨i, v, rfl, rfl, hh ▸ h1, h2, he.trans h2⟩)))))

/-! ## A command placed at the command interface -/

theorem State.placeCommand_fetch (s : State) (w : CmdWord) :
    (s.placeCommand w).fetch = some (decode w) := rfl

/-- The next step after `withFetchWord` performs the command placed, in the state that holds it as
the oldest pending command. -/
theorem step_placeCommand (s : State) (w : CmdWord) :
    step (s.placeCommand w) = exec (decode w) (s.placeCommand w).popMove := rfl

/-! ## Runs -/

theorem run_succ_of_next {s t : State} (k : Nat) (h : step s = .next t) :
    run (k + 1) s = run k t := by
  simp [run, h]

end Sys2Proof.Machine
end

