-- ==== Sys2Proof/Laws/Invariants.lean ====
section
/-!
SUPPORT. When a state meets the table's invariant.
-/

namespace Sys2Proof.Machine

/-- The table's invariant sees only the parameter, the entries, `LUT_READY` and `BUILD_IDX`. -/
theorem TableInv.congr {s t : State} (hl : t.lut = s.lut) (hr : t.lutReady = s.lutReady)
    (hb : t.buildIdx = s.buildIdx) (hi : t.lutImpl = s.lutImpl) (h : TableInv s) : TableInv t where
  buildIdx_le := hb ▸ h.buildIdx_le
  ready_iff := by rw [hr, hb]; exact h.ready_iff
  rom_ready := by rw [hi, hb]; exact h.rom_ready
  built_entries := by rw [hl, hi, hb]; exact h.built_entries
  canonical := by rw [hl, hi]; exact h.canonical

/-- A ROM with nothing listed meets it: every entry reads as the contents fixed at manufacture. -/
theorem tableInv_of_rom {s : State} (hi : s.lutImpl = .rom) (hl : s.lut = [])
    (hr : s.lutReady = 1#1) (hb : s.buildIdx = 65536#17) : TableInv s where
  buildIdx_le := by simp [hb]
  ready_iff := by simp [hr, hb]
  rom_ready := by simp [hb]
  built_entries := by simp [hi, hl, Memory.read, Memory.unlisted]
  canonical := by simp [hl, Memory.wf]

/-- A table of which nothing is built yet meets it. -/
theorem tableInv_of_unbuilt {s : State} (hi : s.lutImpl = .builtAtReset) (hl : s.lut = [])
    (hr : s.lutReady = 0#1) (hb : s.buildIdx = 0#17) : TableInv s where
  buildIdx_le := by simp [hb]
  ready_iff := by simp [hr, hb]
  rom_ready := by simp [hi]
  built_entries := by simp [hb]
  canonical := by simp [hl, Memory.wf]

/-- With the invariant, a ready table's entry reads as the parity of its address. -/
theorem TableInv.memRead {s : State} (h : TableInv s) (hr : s.lutReady = 1#1) (a : Subword) :
    s.memRead a = par a := by
  refine State.memRead_of_read (h.built_entries a ?_)
  rw [h.ready_iff.mp hr]
  exact a.isLt

/-- With the invariant, while `LUT_READY` is not 1 the build is enabled. -/
theorem TableInv.buildEnabled_of_not_ready {s : State} (h : TableInv s) (hr : s.lutReady ≠ 1#1) :
    s.buildEnabled = true := by
  have hne : s.buildIdx.toNat ≠ Config.lutEntries := fun e => hr (h.ready_iff.mpr e)
  have hle := h.buildIdx_le
  refine s.buildEnabled_iff.mpr ⟨?_, by simp only [Config.lutEntries] at *; omega⟩
  cases hi : s.lutImpl with
  | builtAtReset => rfl
  | rom => exact absurd (h.rom_ready hi) hne

end Sys2Proof.Machine
end

