-- ==== Sys2Proof/Laws/PerInstr.lean ====
section
/-!
SUPPORT. Facts about every command, one lemma per constructor.
-/

namespace Sys2Proof.Laws

/-- The family `Fields`: the word of a command holds the command's operation code in its `OP` field
and the command's operand in its `OPERAND` field, and the command is well formed (30_encoding.md R38,
R43). -/
def Fields.Statement (i : Instr) : Prop :=
  opField (encode i) = i.op.bits ∧ operandField (encode i) = i.operand ∧ i.wellFormed = true

namespace Fields

theorem opField_append (b : OpBits) (x : Word64) : opField (b ++ x) = b := by
  apply BitVec.eq_of_getLsbD_eq
  intro i hi
  have := BitVec.getLsbD_append (x := b) (y := x) (i := 64 + i)
  simpa [opField, hi] using this

theorem operandField_append (b : OpBits) (x : Word64) : operandField (b ++ x) = x := by
  apply BitVec.eq_of_getLsbD_eq
  intro i hi
  have := BitVec.getLsbD_append (x := b) (y := x) (i := i)
  simpa [operandField, hi] using this

theorem countbits (x : Word64) : Statement (.countbits x) :=
  ⟨opField_append _ _, operandField_append _ _, rfl⟩

theorem parity (x : Word64) : Statement (.parity x) :=
  ⟨opField_append _ _, operandField_append _ _, rfl⟩

theorem parityCached (x : Word64) : Statement (.parityCached x) :=
  ⟨opField_append _ _, operandField_append _ _, rfl⟩

theorem parityXorfold (x : Word64) : Statement (.parityXorfold x) :=
  ⟨opField_append _ _, operandField_append _ _, rfl⟩

end Fields

end Sys2Proof.Laws
end

