-- ==== Sys2Proof/Machine/Flags.lean ====
section
/-!
DEFINITION. The engine has no status flags, condition codes or predicates, and no command computes
one (10_state.md R21); so this file defines nothing. `RESULT_VALID` and `LUT_READY` are not flags of
a computation: the first is set by every command alike (R20), the second by the table build (R16).
-/
end

