-- ==== Sys2Proof/Tests/Slice0.lean ====
section
/-!
SUPPORT. Tests. Every expected value is the spec's: command words from 30_encoding.md R38 and R40,
results from 95_test_vectors.md. The witnesses at the end show that the hypotheses of each obligation
can be met together.
-/

namespace Sys2Proof.Tests

open Sys2Proof.Machine

/-! ## Decoding and encoding: words written out from R38 and R40 -/

/-- `COUNTBITS 5` (R49's worked example). -/
theorem test_decode_countbits : decodeTableWord 66 0x00000000000000005 = some (.countbits 5#64) := by
  decide

/-- `PARITY 1` (R53's worked example). -/
theorem test_decode_parity : decodeTableWord 66 0x10000000000000001 = some (.parity 1#64) := by
  decide

/-- `PARITY.CACHED 21990232` (R54's worked example). -/
theorem test_decode_parityCached :
    decodeTableWord 66 0x200000000014F8B58 = some (.parityCached 21990232#64) := by
  decide

/-- `PARITY.XORFOLD -1` (95_test_vectors.md P2). -/
theorem test_decode_parityXorfold :
    decodeTableWord 66 0x3FFFFFFFFFFFFFFFF = some (.parityXorfold 0xFFFFFFFFFFFFFFFF#64) := by
  decide

/-- The same words, encoded. -/
theorem test_encode :
    encode (.countbits 10#64) = 0x0000000000000000A#66 ∧
      encode (.parity 1#64) = 0x10000000000000001#66 ∧
      encode (.parityCached 0x8000000000000000#64) = 0x28000000000000000#66 ∧
      encode (.parityXorfold 1#64) = 0x30000000000000001#66 := by
  decide

/-- A number that needs more than 66 bits is no command word (R38). -/
theorem test_decode_too_wide : decodeTableWord 72 0x40000000000000000 = none := by decide

/-- No two rows of the opcode table match one word: their masked patterns differ. -/
theorem test_table_rows_disjoint :
    opcodeTable.Pairwise fun r q => r.maskBits &&& q.maskBits &&& (r.matchBits ^^^ q.matchBits) ≠ 0 := by
  decide

/-! ## Well-formedness: each check refuses an ill-formed term (R46) -/

theorem test_illformed_countbits_high : SourceLine.wellFormed ⟨.countbits, 4294967296⟩ = false := by
  decide

theorem test_illformed_countbits_low : SourceLine.wellFormed ⟨.countbits, -2147483649⟩ = false := by
  decide

theorem test_illformed_parity_high :
    SourceLine.wellFormed ⟨.parity, 18446744073709551616⟩ = false ∧
      SourceLine.wellFormed ⟨.parityCached, 18446744073709551616⟩ = false ∧
      SourceLine.wellFormed ⟨.parityXorfold, 18446744073709551616⟩ = false := by
  decide

theorem test_illformed_parity_low :
    SourceLine.wellFormed ⟨.parity, -9223372036854775809⟩ = false ∧
      SourceLine.wellFormed ⟨.parityCached, -9223372036854775809⟩ = false ∧
      SourceLine.wellFormed ⟨.parityXorfold, -9223372036854775809⟩ = false := by
  decide

/-- The ends of the ranges are accepted. -/
theorem test_wellformed_bounds :
    SourceLine.wellFormed ⟨.countbits, 4294967295⟩ = true ∧
      SourceLine.wellFormed ⟨.countbits, -2147483648⟩ = true ∧
      SourceLine.wellFormed ⟨.parity, 18446744073709551615⟩ = true ∧
      SourceLine.wellFormed ⟨.parity, -9223372036854775808⟩ = true := by
  decide

/-! ## Commands: one step from reset, with the command placed -/

/-- What an outcome shows. -/
def seen : Host.Outcome State Fault Refusal → Option Observation
  | .next t => some t.observe
  | .fault _ => none
  | .refused _ => none

/-- The first step after reset, under `ROM`, with the command of number `w` placed. -/
def firstStep (w : Nat) : Option Observation := seen (step (State.reset.withFetchWord 66 w))

/-- What one completed command shows after reset under `ROM`. -/
def answer (v : Byte) : Option Observation :=
  some { responses := [⟨0, v⟩], result := v, resultValid := 1#1, lutReady := 1#1 }

/-- 2.1: the high half ignored. -/
theorem test_countbits_mixed : firstStep 0x0123456789ABCDEF0 = answer 0x13#8 := by decide

/-- 2.1: the int32 minimum, which needs the logical shift. -/
theorem test_countbits_top_bit : firstStep 0x0FFFFFFFF80000000 = answer 0x01#8 := by decide

/-- 2.2 and conflict C1. -/
theorem test_parity_corrected_literal : firstStep 0x100000000014F8B58 = answer 0x01#8 := by decide

/-- 2.2: only bit 63, which needs the logical shift. -/
theorem test_parity_top_bit : firstStep 0x18000000000000000 = answer 0x01#8 := by decide

/-- P3: three odd subwords. -/
theorem test_parityCached_three_odd : firstStep 0x20001000100010000 = answer 0x01#8 := by decide

/-- P3: mixed subwords. -/
theorem test_parityCached_mixed : firstStep 0x2123456789ABCDEF0 = answer 0x00#8 := by decide

/-- 2.2: 63 ones. -/
theorem test_parityXorfold_63_ones : firstStep 0x37FFFFFFFFFFFFFFF = answer 0x01#8 := by decide

/-- 2.3: the stages of the fold. -/
theorem test_fold_stages :
    (List.range 6).map (fun j => foldPrefix (j + 1) 0x123456789ABCDEF0#64) =
      [0x1234567888888888#64, 0x1234444CDEF00000#64, 0x12267008922EF000#64,
        0x130417081B0C1F00#64, 0x17C512CA1DCF18C0#64, 0x1C279BAF132894A0#64] := by
  decide

/-- 2.1 and 2.2: passes of the loops. -/
theorem test_passes :
    loopPasses 33 0x014F8B58#32 = 25 ∧ loopPasses 65 0x123456789ABCDEF0#64 = 61 := by
  decide

/-! ## The table, its build, the hold and reset (2.5, 2.6) -/

/-- 2.5: entries of the ROM. -/
theorem test_rom_entries :
    [0x0000#16, 0x0003#16, 0x0007#16, 0x8000#16, 0x8001#16, 0x8B58#16, 0x014F#16, 0x9ABC#16].map
      State.reset.memRead = [0#1, 0#1, 1#1, 1#1, 0#1, 1#1, 0#1, 1#1] := by
  decide

/-- A machine just after reset under `BUILT_AT_RESET`, with the build index moved on. -/
def building (idx : BuildIdx) : State :=
  { State.resetFor .builtAtReset with buildIdx := idx, schedule := [.build] }

/-- V-R4: the last build step writes `LUT[0xFFFF] = 0` and sets `LUT_READY`. -/
theorem test_last_build_step :
    (building 65535#17).popMove.buildStep.buildIdx = 65536#17 ∧
      (building 65535#17).popMove.buildStep.lutReady = 1#1 ∧
      (building 65535#17).popMove.buildStep.lut = [(65535, 0#1)] := by
  decide

/-- R79: the step before it does not set `LUT_READY`. -/
theorem test_build_step_before_last :
    (building 65534#17).popMove.buildStep.lutReady = 0#1 ∧
      (building 65534#17).popMove.buildStep.memRead 0xFFFE#16 = 1#1 := by
  decide

/-- P4 after step 3: `COUNTBITS 10` has completed, `PARITY.CACHED 3` is held and
`PARITY.XORFOLD 1` is held behind it. -/
def heldState : State :=
  { State.resetFor .builtAtReset with
    result := 0x02#8
    resultValid := 1#1
    pending := [⟨0, 0x20000000000000003#66⟩, ⟨0, 0x30000000000000001#66⟩]
    responses := [⟨0, 0x02#8⟩]
    hosts := [{ HostPort.fresh with
      program := [0x0000000000000000A#66, 0x20000000000000003#66, 0x30000000000000001#66]
      issued := 3
      cpos := 1 }]
    schedule := [.engine] }

/-- V-R5 and V-R6: the held commands stay, and nothing is answered or written. -/
theorem test_hold : step heldState = .next heldState.popMove := rfl

/-- R67: with nothing scheduled the build step is taken. -/
theorem test_build_taken_while_held : heldState.popMove.nextMove = .build := by decide

/-- V-R7 and P4r: reset discards both commands with no responses. -/
theorem test_reset_while_held :
    heldState.applyReset.pending = [] ∧
      heldState.applyReset.observe =
        { responses := [⟨0, 0x02#8⟩], result := 0x00#8, resultValid := 0#1, lutReady := 0#1 } ∧
      heldState.applyReset.hosts.map HostPort.discarded =
        [[0x20000000000000003#66, 0x30000000000000001#66]] := by
  decide

/-- V-R8: `COUNTBITS 5` performs while the table is not ready. -/
theorem test_countbits_during_build :
    seen (step ((State.resetFor .builtAtReset).withFetchWord 66 0x00000000000000005)) =
      some { responses := [⟨0, 0x02#8⟩], result := 0x02#8, resultValid := 1#1,
             lutReady := 0#1 } := by
  decide

/-- V-R1 and V-R9: reset under `ROM`. -/
theorem test_reset_rom :
    State.reset.observe =
        { responses := [], result := 0x00#8, resultValid := 0#1, lutReady := 1#1 } ∧
      State.reset.buildIdx = 65536#17 := by
  decide

/-- V-R2: reset under `BUILT_AT_RESET`. -/
theorem test_reset_built :
    (State.resetFor .builtAtReset).observe =
        { responses := [], result := 0x00#8, resultValid := 0#1, lutReady := 0#1 } ∧
      (State.resetFor .builtAtReset).buildIdx = 0#17 := by
  decide

/-! ## The assembler (R45, R46, R47; lines of P1 to P3) -/

theorem test_assemble_negative :
    assembleLine ['C', 'O', 'U', 'N', 'T', 'B', 'I', 'T', 'S', ' ', '-', '1'] =
      .ok 0x0FFFFFFFFFFFFFFFF#66 := by
  decide

theorem test_assemble_comment_case :
    assembleLine (['p', 'a', 'r', 'i', 't', 'y', '.', 'C', 'A', 'C', 'H', 'E', 'D', ' '] ++
      ['0', 'x', '0', '0', '0', '1', '_', '0', '0', '0', '0', ' ', ';', ' ', 'x']) =
      .ok 0x20000000000010000#66 := by
  decide

theorem test_assemble_refusals :
    assembleLine ['X', ' ', '1'] = .error .unknownMnemonic ∧
      assembleLine ['P', 'A', 'R', 'I', 'T', 'Y'] = .error .missingOperand ∧
      assembleLine ['P', 'A', 'R', 'I', 'T', 'Y', ' ', '1', ' ', '2'] = .error .extraOperand ∧
      assembleLine ['P', 'A', 'R', 'I', 'T', 'Y', ' ', '0', 'b', '2'] =
        .error .malformedLiteral := by
  decide

/-- An assembler names the refused line (R46). -/
theorem test_assemble_names_line :
    assembleProgram [['P', 'A', 'R', 'I', 'T', 'Y', ' ', '1'], ['P', 'A', 'R', 'I', 'T', 'Y']] =
      .error (2, .missingOperand) := by
  decide

theorem test_disassemble :
    disassemble 0x1000000000000000A#66 =
      ['P', 'A', 'R', 'I', 'T', 'Y', ' ', '0', 'x'] ++ List.replicate 15 '0' ++ ['A'] := by
  decide

/-! ## Witnesses: the hypotheses of each obligation met together -/

/-- A ROM machine with one command pending and the engine to move. -/
def readyState (w : CmdWord) : State := State.reset.placeCommand w

theorem readyState_tableInv (w : CmdWord) : TableInv (readyState w) :=
  tableInv_of_rom rfl rfl rfl rfl

theorem heldState_tableInv : TableInv heldState := tableInv_of_unbuilt rfl rfl rfl rfl

theorem building_tableInv : TableInv (building 0#17) := tableInv_of_unbuilt rfl rfl rfl rfl

/-- EveryWordIsALegalCommand, at the least and the greatest word. -/
theorem witness_legal_words : 0 < 2 ^ 66 ∧ 0x3FFFFFFFFFFFFFFFF < 2 ^ 66 := by decide

/-- StepPerformsDecodedCommand: with a command pending, and with none. -/
theorem witness_engine_moves :
    ((readyState 5#66).nextMove = .engine ∧ (readyState 5#66).pending = [⟨0, 5#66⟩]) ∧
      (State.reset.nextMove = .engine ∧ State.reset.pending = []) := by
  decide

/-- CountLoopEndsByLogicalShift: a value with bit 31 set. -/
theorem witness_bit31 : (0x80000000#32).getLsbD 31 = true := by decide

/-- FoldInvariantGivesParity: the first and the last fold. -/
theorem witness_folds :
    [32, 16, 8, 4, 2, 1][0]? = some 32 ∧ [32, 16, 8, 4, 2, 1][5]? = some 1 := by
  decide

/-- ParityCachedReadsFourEntries, ParityCachedWritesParity, RomHoldsNoCommand,
ThreeParityCommandsAgree, ParityIsPopulationCountMod2, ParityDependsOnlyOnPopcount and
ReadyTableHoldsParities (its run of no steps). -/
theorem witness_ready_rom :
    TableInv State.reset ∧ State.reset.lutReady = 1#1 ∧ State.reset.lutImpl = .rom :=
  ⟨tableInv_of_rom rfl rfl rfl rfl, rfl, rfl⟩

/-- ParityIsPopulationCountMod2: a zero- and a sign-extended pattern. -/
theorem witness_extended :
    0x0000000080000000#64 = (0x80000000#32).setWidth 64 ∧
      0xFFFFFFFF80000000#64 = (0x80000000#32).signExtend 64 := by
  decide

/-- ParityDependsOnlyOnPopcount: two operands with one popcount, and a permutation of the bits. -/
theorem witness_same_popcount :
    popcount 0x8000000000000003#64 = popcount 7#64 ∧
      ∀ i : Fin 64, (6#64).getLsbD i = (6#64).getLsbD (Equiv.refl (Fin 64) i) := by
  exact ⟨by decide, fun _ => rfl⟩

/-- ParityCachedWaitsForTable, UnreadyTableIsNotObservable. -/
theorem witness_not_ready : heldState.lutReady = 0#1 := rfl

/-- HeldCommandStaysAndHoldsOthers. -/
theorem witness_held :
    heldState.pending = [⟨0, 0x20000000000000003#66⟩, ⟨0, 0x30000000000000001#66⟩] ∧
      decode 0x20000000000000003#66 = .parityCached 3#64 ∧ heldState.lutReady = 0#1 ∧
      heldState.nextMove ≠ .reset ∧ step heldState = .next heldState.popMove :=
  ⟨rfl, by decide, rfl, by decide, rfl⟩

/-- ParityResultIsZeroOrOne, ResponseIsResultToIssuer, CposAdvancesByOne, WhoWritesWhichState (its
first clause) and OtherCommandsIgnoreTheTable. -/
theorem witness_completes :
    (readyState 0x10000000000000001#66).pending = [⟨0, 0x10000000000000001#66⟩] ∧
      (readyState 0x10000000000000001#66).holds (.parity 1#64) = false ∧
      (readyState 0x10000000000000001#66).holds (.parityCached 1#64) = false ∧
      Instr.op (.parity 1#64) ≠ .countbits ∧ Instr.op (.parity 1#64) ≠ .parityCached ∧
      (readyState 0x10000000000000001#66).hosts[0]? =
        some { HostPort.fresh with program := [0x10000000000000001#66], issued := 1 } := by
  decide

/-- CommandFrame. -/
theorem witness_frame :
    exec (.parity 1#64) State.reset = .next (State.reset.complete 1#8) := rfl

/-- WhoWritesWhichState (its second clause), CommandsCompleteInIssueOrder, PublishedTableIsFixed,
ResultValidFollowsCompletion, ParameterNeverChanges, StepKeepsTableInv: a step that completes a
command. -/
theorem witness_step :
    TableInv (readyState 0x10000000000000001#66) ∧
      (readyState 0x10000000000000001#66).lutReady = 1#1 ∧
      (readyState 0x10000000000000001#66).resultValid = 0#1 ∧
      (readyState 0x10000000000000001#66).nextMove ≠ .build ∧
      (readyState 0x10000000000000001#66).nextMove ≠ .reset ∧
      step (readyState 0x10000000000000001#66) =
        .next ((readyState 0x10000000000000001#66).popMove.complete 1#8) ∧
      ((readyState 0x10000000000000001#66).popMove.complete 1#8).resultValid = 1#1 :=
  ⟨readyState_tableInv _, rfl, rfl, by decide, by decide, rfl, rfl⟩

/-- Two hosts, each with one command to issue, the second to issue first. -/
def twoHosts : State :=
  State.reset.load
    [{ HostPort.fresh with program := [5#66] },
     { HostPort.fresh with program := [0x30000000000000001#66] }]
    [.issue 1, .issue 0]

/-- AnyInterleavingIsAnIssueOrder. -/
theorem witness_interleaving :
    twoHosts.schedule = [1, 0].map Move.issue ++ [] ∧
      ∀ h ∈ [1, 0], ∃ p : HostPort, twoHosts.hosts[h]? = some p ∧
        p.issued + [1, 0].count h ≤ p.program.length := by
  refine ⟨rfl, fun h hh => ?_⟩
  simp only [List.mem_cons, List.not_mem_nil, or_false] at hh
  rcases hh with rfl | rfl
  · exact ⟨_, rfl, by decide⟩
  · exact ⟨_, rfl, by decide⟩

/-- HostIssuesItsNextCommand. -/
theorem witness_issue :
    twoHosts.nextMove = .issue 1 ∧
      twoHosts.hosts[1]? = some { HostPort.fresh with program := [0x30000000000000001#66] } ∧
      ([0x30000000000000001#66] : List CmdWord)[0]? = some 0x30000000000000001#66 := by
  decide

/-- HostReissuesDiscardedCommand and HostReadsHaveNoSideEffect: a host that lost a command. -/
def lostCommand (m : Move) : State :=
  State.reset.load [{ HostPort.fresh with program := [5#66], issued := 1, discarded := [5#66] }] [m]

theorem witness_reissue :
    (lostCommand (.reissue 0)).nextMove = .reissue 0 ∧
      (lostCommand (.reissue 0)).hosts[0]? =
        some { HostPort.fresh with program := [5#66], issued := 1, discarded := [5#66] } := by
  decide

theorem witness_read :
    (lostCommand (.read 0 .lutReady)).nextMove = .read 0 .lutReady ∧
      (lostCommand (.read 0 .lutReady)).hosts[0]? =
        some { HostPort.fresh with program := [5#66], issued := 1, discarded := [5#66] } := by
  decide

/-- BuildStepWritesOneEntry: enabled, and not enabled for each of the two reasons. -/
theorem witness_build :
    ((building 65535#17).nextMove = .build ∧ (building 65535#17).lutImpl = .builtAtReset ∧
        (building 65535#17).buildIdx.toNat < 65536 ∧
        (0xFFFF#64).toNat = (building 65535#17).buildIdx.toNat) ∧
      (building 65536#17).nextMove = .build ∧ 65536 ≤ (building 65536#17).buildIdx.toNat ∧
      (lostCommand .build).nextMove = .build ∧ (lostCommand .build).lutImpl = .rom := by
  decide

/-- BuildEndsAfterAllEntries. -/
theorem witness_build_start :
    (building 0#17).lutImpl = .builtAtReset ∧ (building 0#17).buildIdx = 0#17 ∧
      (building 0#17).lutReady = 0#1 := by
  decide

/-- FreeEntryValueIsNeverObserved and EveryPendingCommandCompletes: a table not yet built, and
commands pending with nothing scheduled. -/
theorem witness_unbuilt :
    TableInv (building 0#17) ∧ run 1 (building 0#17) = .next (building 0#17).popMove.buildStep ∧
      TableInv heldState.popMove ∧ heldState.popMove.schedule = [] :=
  ⟨building_tableInv, rfl, TableInv.congr (s := heldState) rfl rfl rfl rfl heldState_tableInv, rfl⟩

/-- ResetSetsResetValues and ResetDiscardsPendingCommands, for each `LUT_IMPL`. -/
theorem witness_reset :
    ({ heldState with schedule := [.reset] } : State).nextMove = .reset ∧
      ({ heldState with schedule := [.reset] } : State).lutImpl = .builtAtReset ∧
      (lostCommand .reset).nextMove = .reset ∧ (lostCommand .reset).lutImpl = .rom ∧
      (lostCommand .reset).hosts[0]? =
        some { HostPort.fresh with program := [5#66], issued := 1, discarded := [5#66] } := by
  decide

/-- StepKeepsResultInv. -/
theorem witness_resultInv :
    ResultInv (readyState 5#66) ∧
      step (readyState 5#66) = .next ((readyState 5#66).popMove.complete 2#8) :=
  ⟨⟨fun _ => rfl, by decide⟩, rfl⟩

/-- StepKeepsHostInv and CposAtLengthMeansProgramEnded: a host that has issued its one command. -/
theorem witness_hostInv :
    HostInv (readyState 5#66) ∧
      step (readyState 5#66) = .next ((readyState 5#66).popMove.complete 2#8) ∧
      (readyState 5#66).hosts[0]? =
        some { HostPort.fresh with program := [5#66], issued := 1 } := by
  have h0 : ∀ (h : Nat) (p : HostPort), (readyState 5#66).hosts[h]? = some p →
      h = 0 ∧ p = { HostPort.fresh with program := [5#66], issued := 1 } := by
    intro h p hp
    match h, hp with
    | 0, hp => exact ⟨rfl, (Option.some.inj hp).symm⟩
  refine ⟨⟨fun h p hp => ?_, fun h p hp => ?_, fun h p hp => ?_, by decide⟩, rfl, rfl⟩ <;>
    obtain ⟨rfl, rfl⟩ := h0 h p hp <;> decide

/-- CposAtLengthMeansProgramEnded: a program that has ended. -/
theorem witness_program_ended : State.reset.programEnded 0 := ⟨HostPort.fresh, rfl, rfl, rfl⟩

/-- HostMoveWithoutEffect: a host with an empty program, one that lost nothing, and one that does not
exist. -/
theorem witness_no_effect :
    (State.reset.load [HostPort.fresh] [.issue 0]).nextMove = .issue 0 ∧
      (State.reset.load [HostPort.fresh] [.reissue 0]).nextMove = .reissue 0 ∧
      (∀ p : HostPort, [HostPort.fresh][0]? = some p →
        p.program.length ≤ p.issued ∧ p.discarded = []) ∧
      (State.reset.load [] [.read 7 .result]).nextMove = .read 7 .result ∧
      (State.reset.load [] [.read 7 .result]).hosts[7]? = none :=
  ⟨rfl, rfl, fun _ hp => Option.some.inj hp ▸ ⟨Nat.le_refl 0, rfl⟩, rfl, rfl⟩

/-- R33, R15: host 1's move comes first; host 0 issues its own two in order, and has none left for
its third move. -/
theorem test_issuedLater :
    State.issuedLater { heldState with
        hosts := [{ HostPort.fresh with program := [5#66, 6#66] },
          { HostPort.fresh with program := [7#66], issued := 1, discarded := [7#66] }]
        schedule := [.reissue 1, .issue 0, .engine, .issue 0, .issue 0] } =
      [⟨1, 7#66⟩, ⟨0, 5#66⟩, ⟨0, 6#66⟩] := by
  decide

/-- PendingCompleteBehindAnySchedule: commands held, with a move scheduled that issues another and is
no reset. -/
theorem witness_scheduled :
    let s : State := { heldState with
      hosts := [{ HostPort.fresh with program := [5#66] }]
      schedule := [.issue 0] }
    TableInv s ∧ Move.reset ∉ s.schedule ∧ s.issuedLater = [⟨0, 5#66⟩] :=
  ⟨TableInv.congr (s := heldState) rfl rfl rfl rfl heldState_tableInv, by decide, by decide⟩

/-- LiteralBecomesOperand: literals in range and out of it, a negative one for `COUNTBITS` too. -/
theorem witness_literals :
    ((-2 ^ 31 : Int) ≤ -1 ∧ (-1 : Int) ≤ 2 ^ 32 - 1) ∧ ¬ ((2 ^ 32 : Int) ≤ 2 ^ 32 - 1) := by
  decide

/-- DisassemblyAssemblesBack: each of its two cases. -/
theorem witness_disassembly :
    (decode 0x1FFFFFFFFFFFFFFFF#66).op ≠ .countbits ∧
      ((decode 0x00000000100000000#66).op = .countbits ∧
        2 ^ 32 ≤ (decode 0x00000000100000000#66).operand.toNat) ∧
      (decode 0x000000000FFFFFFFF#66).operand.toNat < 2 ^ 32 := by
  decide

end Sys2Proof.Tests
end

/-!
PROOFS. The statements of 10_state.md: the lookup table, the result registers, the hosts' account, what a
command leaves unchanged, and what no run observes.
-/

namespace Sys2Proof.Machine

/-! ### Bits -/

theorem popcount_le_width {n : Nat} (v : BitVec n) : popcount v ≤ n :=
  List.countP_le_length.trans_eq List.length_range

@[simp] theorem popcount_zero (n : Nat) : popcount 0#n = 0 := by
  simp [popcount]

/-- Widening with zeros adds no 1-bit. -/
theorem popcount_setWidth_add {n : Nat} (v : BitVec n) (k : Nat) :
    popcount (v.setWidth (n + k)) = popcount v := by
  have hlow : (List.range n).countP (fun i => (v.setWidth (n + k)).getLsbD i) = popcount v :=
    List.countP_congr fun i hi => by
      have : i < n + k := by have := List.mem_range.mp hi; omega
      simp [this]
  have hhigh : ((List.range k).map (n + ·)).countP
      (fun i => (v.setWidth (n + k)).getLsbD i) = 0 := by
    simp [List.countP_eq_zero]
  rw [popcount, List.range_add, List.countP_append, hlow, hhigh, Nat.add_zero]

/-- The 1-bits of a value are bit 0 and those of the value shifted right by one. -/
theorem popcount_eq_bit0_add_shift {n : Nat} (v : BitVec n) :
    popcount v = (v.getLsbD 0).toNat + popcount (v >>> (1 : Nat)) := by
  cases n with
  | zero => simp [popcount]
  | succ n =>
    have hshift : popcount (v >>> (1 : Nat)) =
        (List.range n).countP fun i => v.getLsbD (i + 1) := by
      rw [popcount, List.range_succ, List.countP_append]
      simp [Nat.add_comm]
    rw [hshift, popcount, List.range_succ_eq_map, List.countP_cons, List.countP_map]
    cases v.getLsbD 0 <;> simp [Function.comp_def, Nat.add_comm]

@[simp] theorem par_zero (n : Nat) : par 0#n = 0#1 := by
  simp [par]

theorem par_setWidth_add {n : Nat} (v : BitVec n) (k : Nat) : par (v.setWidth (n + k)) = par v := by
  rw [par, popcount_setWidth_add, par]

theorem par_eq_bit0_xor_shift {n : Nat} (v : BitVec n) :
    par v = BitVec.ofBool (v.getLsbD 0) ^^^ par (v >>> (1 : Nat)) := by
  rw [par, par, popcount_eq_bit0_add_shift v]
  have hmod := Nat.mod_two_eq_zero_or_one (popcount (v >>> (1 : Nat)))
  cases v.getLsbD 0 <;> rcases hmod with h | h <;> simp [Nat.add_mod, h]

/-- A shift right by one halves the bound on a value. -/
theorem shiftRight_one_lt {w n : Nat} {v : BitVec w} (h : v.toNat < 2 ^ (n + 1)) :
    (v >>> (1 : Nat)).toNat < 2 ^ n := by
  rw [BitVec.toNat_ushiftRight, Nat.shiftRight_eq_div_pow]
  rw [Nat.pow_succ] at h
  omega

theorem eq_zero_of_toNat_lt_one {w : Nat} {v : BitVec w} (h : v.toNat < 2 ^ 0) : v = 0#w :=
  BitVec.eq_of_toNat_eq (by simpa using h)

/-- The parity loop, given passes enough for the value, accumulates the value's parity (R53). -/
theorem parityLoop_eq (n : Nat) (x : Word64) (p : Bit) (h : x.toNat < 2 ^ n) :
    parityLoop n x p = p ^^^ par x := by
  induction n generalizing x p with
  | zero => simp [parityLoop, eq_zero_of_toNat_lt_one h]
  | succ n ih =>
    have hbit : (x &&& 1#64).extractLsb' 0 1 = BitVec.ofBool (x.getLsbD 0) := by
      ext i hi
      obtain rfl : i = 0 := by omega
      simp
    rw [parityLoop]
    split
    · next hx => simp [hx]
    · rw [ih _ _ (shiftRight_one_lt h), hbit, par_eq_bit0_xor_shift x, BitVec.xor_assoc]

/-- The count loop, given passes enough for the value, adds the value's 1-bits (R49). -/
theorem countLoop_eq (n : Nat) (x : Word32) (c : Nat) (h : x.toNat < 2 ^ n) :
    countLoop n x c = c + popcount x := by
  induction n generalizing x c with
  | zero => simp [countLoop, eq_zero_of_toNat_lt_one h]
  | succ n ih =>
    have hbit : (x &&& 1#32).toNat = (x.getLsbD 0).toNat := by
      rw [BitVec.toNat_and, BitVec.getLsbD, Nat.testBit_zero]
      rcases Nat.mod_two_eq_zero_or_one x.toNat with h | h <;> simp [h]
    rw [countLoop]
    split
    · next hx => simp [hx]
    · rw [ih _ _ (shiftRight_one_lt h), hbit, popcount_eq_bit0_add_shift x, Nat.add_assoc]

theorem serialParity_eq_par (x : Word64) : serialParity x = par x := by
  rw [serialParity, parityLoop_eq 64 x 0#1 x.isLt, BitVec.zero_xor]

theorem countBits_eq_popcount (x : Word32) : countBits x = popcount x := by
  rw [countBits, countLoop_eq 32 x 0 x.isLt, Nat.zero_add]

/-! ### Commands -/

/-- The value a command completes with when it is not held (R49, R53, R54, R56). -/
def State.commandValue (s : State) : Instr → Byte
  | .countbits x => BitVec.ofNat 8 (countBits (countOperand x))
  | .parity x => parityByte (serialParity x)
  | .parityCached x => parityByte (s.cachedParity x)
  | .parityXorfold x => parityByte (foldParity x)

theorem exec_of_held {s : State} {i : Instr} (h : s.holds i = true) : exec i s = .next s := by
  rcases exec_cases i s with ⟨_, he⟩ | ⟨hn, _⟩
  · exact he
  · simp [h] at hn

theorem exec_of_not_held {s : State} {i : Instr} (h : s.holds i = false) :
    exec i s = .next (s.complete (s.commandValue i)) := by
  cases i with
  | countbits x => exact exec_countbits x s
  | parity x => exact exec_parity x s
  | parityXorfold x => exact exec_parityXorfold x s
  | parityCached x => exact exec_parityCached_of_ready x s (by simpa [State.holds] using h)

theorem parityByte_le (p : Bit) : (parityByte p).toNat ≤ 1 := by
  have := p.isLt
  simp only [parityByte, BitVec.toNat_setWidth]
  omega

/-- No command's value is over 32, whatever the table holds (R19). -/
theorem State.commandValue_le (s : State) (i : Instr) : (s.commandValue i).toNat ≤ 32 := by
  cases i with
  | countbits x =>
    have := popcount_le_width (countOperand x)
    simp only [State.commandValue, countBits_eq_popcount, BitVec.toNat_ofNat]
    omega
  | parity x => exact (parityByte_le _).trans (by decide)
  | parityCached x => exact (parityByte_le _).trans (by decide)
  | parityXorfold x => exact (parityByte_le _).trans (by decide)

@[simp] theorem State.popMove_holds (s : State) (i : Instr) : s.popMove.holds i = s.holds i := by
  cases i <;> rfl

@[simp] theorem State.popMove_commandValue (s : State) (i : Instr) :
    s.popMove.commandValue i = s.commandValue i := by
  cases i <;> rfl

theorem State.complete_of_nil {s : State} (v : Byte) (h : s.pending = []) :
    s.complete v = s.setResult v :=
  State.respond_of_nil (s.setResult v) v h

/-- A completion leaves of every host what the advance of `cpos` leaves. -/
theorem State.complete_hosts_map {β : Type} (f : HostPort → β) (hf : ∀ p, f p.advance = f p)
    (s : State) (v : Byte) : (s.complete v).hosts.map f = s.hosts.map f := by
  cases hp : s.pending with
  | nil => rw [State.complete_of_nil v hp, State.setResult_hosts]
  | cons c rest =>
    rw [State.complete_hosts_of_cons s v c rest hp]
    refine List.ext_getElem? fun j => ?_
    rw [List.getElem?_map, List.getElem?_map, List.getElem?_modify]
    split <;> cases s.hosts[j]? <;> simp [hf]

theorem State.complete_responses_prefix (s : State) (v : Byte) :
    ∃ new, (s.complete v).responses = s.responses ++ new := by
  cases hp : s.pending with
  | nil => exact ⟨[], by simp [State.complete_of_nil v hp]⟩
  | cons c rest => exact ⟨_, State.complete_responses_of_cons s v c rest hp⟩

/-! ### Steps, by the agent that moves -/

theorem step_of_issue {s : State} {h : Nat} (hm : s.nextMove = .issue h) :
    step s = .next (s.popMove.hostIssue h) := by
  simp [step, hm]

theorem step_of_reissue {s : State} {h : Nat} (hm : s.nextMove = .reissue h) :
    step s = .next (s.popMove.hostReissue h) := by
  simp [step, hm]

theorem step_of_read {s : State} {h : Nat} {r : HostReg} (hm : s.nextMove = .read h r) :
    step s = .next (s.popMove.hostRead h r) := by
  simp [step, hm]

theorem step_of_engine {s : State} (hm : s.nextMove = .engine) : step s = engineStep s.popMove := by
  simp [step, hm]

theorem step_of_build {s : State} (hm : s.nextMove = .build) :
    step s = .next s.popMove.buildStep := by
  simp [step, hm]

theorem step_of_reset {s : State} (hm : s.nextMove = .reset) :
    step s = .next s.popMove.applyReset := by
  simp [step, hm]

theorem State.fetch_eq_some {s : State} {i : Instr} (h : s.fetch = some i) :
    ∃ c rest, s.pending = c :: rest ∧ decode c.word = i := by
  cases hp : s.pending with
  | nil => simp [State.fetch, hp] at h
  | cons c rest => exact ⟨c, rest, rfl, by simpa [State.fetch, hp] using h⟩

/-! ### What a build step leaves unchanged -/

@[simp] theorem State.buildStep_lutImpl (s : State) : s.buildStep.lutImpl = s.lutImpl := by
  rcases s.buildStep_cases with ⟨_, h⟩ | ⟨_, h⟩ <;> simp [h]
@[simp] theorem State.buildStep_result (s : State) : s.buildStep.result = s.result := by
  rcases s.buildStep_cases with ⟨_, h⟩ | ⟨_, h⟩ <;> simp [h]
@[simp] theorem State.buildStep_resultValid (s : State) :
    s.buildStep.resultValid = s.resultValid := by
  rcases s.buildStep_cases with ⟨_, h⟩ | ⟨_, h⟩ <;> simp [h]
@[simp] theorem State.buildStep_pending (s : State) : s.buildStep.pending = s.pending := by
  rcases s.buildStep_cases with ⟨_, h⟩ | ⟨_, h⟩ <;> simp [h]
@[simp] theorem State.buildStep_responses (s : State) : s.buildStep.responses = s.responses := by
  rcases s.buildStep_cases with ⟨_, h⟩ | ⟨_, h⟩ <;> simp [h]
@[simp] theorem State.buildStep_hosts (s : State) : s.buildStep.hosts = s.hosts := by
  rcases s.buildStep_cases with ⟨_, h⟩ | ⟨_, h⟩ <;> simp [h]

/-! ### The result registers over a step -/

/-- But for reset, a step leaves the result registers and the responses, or it completes the oldest
pending command with its value. -/
theorem step_keeps_result_or_completes {s t : State} (hm : s.nextMove ≠ .reset)
    (hs : step s = .next t) :
    (t.result = s.result ∧ t.resultValid = s.resultValid ∧ t.responses = s.responses) ∨
      ∃ c rest, s.pending = c :: rest ∧ s.holds (decode c.word) = false ∧
        t = s.popMove.complete (s.commandValue (decode c.word)) := by
  rcases step_cases s with ⟨h, _, he⟩ | ⟨h, _, he⟩ | ⟨h, r, _, he⟩ | ⟨_, _, he⟩ | ⟨i, _, _, _, he⟩ |
    ⟨i, v, _, hf, hh, hx, he⟩ | ⟨_, he⟩ | ⟨hr, _⟩
  on_goal 8 => exact absurd hr hm
  on_goal 6 =>
    obtain ⟨c, rest, hp, rfl⟩ := State.fetch_eq_some hf
    rw [he, ← hx, exec_of_not_held (s.popMove_holds _ ▸ hh), s.popMove_commandValue] at hs
    cases hs
    exact .inr ⟨c, rest, hp, hh, rfl⟩
  all_goals
    rw [he] at hs
    cases hs
    exact .inl (by simp)

/-! ### The table over a step -/

/-- Nothing of the lookup table and its build differs. -/
structure SameTable (s t : State) : Prop where
  lutImpl : t.lutImpl = s.lutImpl
  lut : t.lut = s.lut
  lutReady : t.lutReady = s.lutReady
  buildIdx : t.buildIdx = s.buildIdx
  lutDraw : t.lutDraw = s.lutDraw

theorem SameTable.refl (s : State) : SameTable s s := ⟨rfl, rfl, rfl, rfl, rfl⟩

theorem SameTable.memRead {s t : State} (h : SameTable s t) (a : Subword) :
    t.memRead a = s.memRead a :=
  State.memRead_congr h.lutImpl h.lut h.lutDraw a

theorem SameTable.tableInv {s t : State} (h : SameTable s t) (hs : TableInv s) : TableInv t :=
  TableInv.congr h.lut h.lutReady h.buildIdx h.lutImpl hs

theorem State.popMove_sameTable (s : State) : SameTable s s.popMove := ⟨rfl, rfl, rfl, rfl, rfl⟩

theorem State.complete_sameTable (s : State) (v : Byte) : SameTable s (s.complete v) := by
  constructor <;> simp

theorem exec_sameTable {i : Instr} {s t : State} (he : exec i s = .next t) : SameTable s t := by
  rcases exec_cases i s with ⟨_, h⟩ | ⟨_, v, h⟩ <;> cases h.symm.trans he
  · exact SameTable.refl s
  · exact s.complete_sameTable v

/-- R24: but for a build step and reset, no step writes anything of the table. -/
theorem step_sameTable {s t : State} (hb : s.nextMove ≠ .build) (hr : s.nextMove ≠ .reset)
    (hs : step s = .next t) : SameTable s t := by
  rcases step_cases s with ⟨h, _, he⟩ | ⟨h, _, he⟩ | ⟨h, r, _, he⟩ | ⟨_, _, he⟩ | ⟨i, _, _, _, he⟩ |
    ⟨i, v, _, _, _, _, he⟩ | ⟨hm, _⟩ | ⟨hm, _⟩
  on_goal 8 => exact absurd hm hr
  on_goal 7 => exact absurd hm hb
  all_goals
    cases he.symm.trans hs
    constructor <;> simp

/-- The build step writes the parity of the index and moves the index on, which keeps the table's
invariant (R79). -/
theorem TableInv.buildStep {s : State} (h : TableInv s) : TableInv s.buildStep := by
  rcases s.buildStep_cases with ⟨_, hb⟩ | ⟨hen, hb⟩ <;> rw [hb]
  · exact h
  obtain ⟨himpl, hlt⟩ := s.buildEnabled_iff.mp hen
  have haddr : (s.buildIdx.extractLsb' 0 16).toNat = s.buildIdx.toNat := by
    rw [BitVec.extractLsb'_toNat, Nat.shiftRight_zero, Nat.mod_eq_of_lt hlt]
  have hidx : (s.buildIdx + 1#17).toNat = s.buildIdx.toNat + 1 := by
    rw [BitVec.toNat_add, BitVec.toNat_ofNat]
    omega
  have hlast : s.buildIdx + 1#17 = 65536#17 ↔ s.buildIdx.toNat + 1 = 65536 := by
    rw [← BitVec.toNat_inj, hidx]; rfl
  have hnot : s.lutReady ≠ 1#1 := fun hr => hlt.ne (h.ready_iff.mp hr)
  have hentry : serialParity ((s.buildIdx.extractLsb' 0 16).setWidth 64) =
      par (s.buildIdx.extractLsb' 0 16) := by
    rw [serialParity_eq_par]
    exact par_setWidth_add _ 48
  constructor
  case buildIdx_le => exact hidx.trans_le hlt
  case ready_iff => by_cases he : s.buildIdx.toNat + 1 = 65536 <;> simp [hidx, hlast, hnot, he]
  case rom_ready => simp [himpl]
  case built_entries =>
    intro a ha
    simp only [State.buildAdvance_buildIdx, State.memWrite_buildIdx, hidx] at ha
    simp only [State.buildAdvance_lut, State.buildAdvance_lutImpl, State.memWrite_lut,
      State.memWrite_lutImpl, Memory.read_write, hentry]
    split
    · next heq => rw [BitVec.eq_of_toNat_eq heq]
    · next hne => exact h.built_entries a (by omega)
  case canonical => exact Memory.wf_write _ _ h.canonical

theorem TableInv.applyReset {s : State} (h : TableInv s) : TableInv s.applyReset := by
  cases himpl : s.lutImpl with
  | builtAtReset =>
    exact tableInv_of_unbuilt (by simp [himpl])
      (by simp [State.applyReset, State.resetEngine, himpl])
      (by simp [State.applyReset, State.resetEngine, himpl])
      (by simp [State.applyReset, State.resetEngine, himpl])
  | rom =>
    have hidx := h.rom_ready himpl
    refine TableInv.congr ?_ ?_ ?_ (by simp) h
    · simp [State.applyReset, State.resetEngine, himpl]
    · simp [State.applyReset, State.resetEngine, himpl, h.ready_iff.mpr hidx]
    · refine BitVec.eq_of_toNat_eq ?_
      simp [State.applyReset, State.resetEngine, himpl, hidx]

/-- Settles O29, by the agent that moves: only the build and reset write the table. -/
theorem stepKeepsTableInv : Obligations.StepKeepsTableInv := by
  unfold Obligations.StepKeepsTableInv
  intro s t h hs
  by_cases hb : s.nextMove = .build
  · cases (step_of_build hb).symm.trans hs
    exact TableInv.buildStep (s.popMove_sameTable.tableInv h)
  by_cases hr : s.nextMove = .reset
  · cases (step_of_reset hr).symm.trans hs
    exact TableInv.applyReset (s.popMove_sameTable.tableInv h)
  · exact (step_sameTable hb hr hs).tableInv h

/-! ### The hosts' account of their commands -/

theorem modify_eq_set_of_getElem? {α : Type} {l : List α} {i : Nat} {a : α} (f : α → α)
    (h : l[i]? = some a) : l.modify i f = l.set i (f a) := by
  simp [List.modify_eq_set_getElem?, h]

theorem State.inflight_eq_countP (s : State) (h : Nat) :
    s.inflight h = s.pending.countP fun c => decide (c.host = h) := by
  simp [State.inflight, State.pendingOf, List.countP_eq_length_filter]

/-- A queued command is one more of its host's, and of no other host's. -/
theorem State.inflight_enqueue (s : State) (h k : Nat) (w : CmdWord) :
    (s.enqueue h w).inflight k = s.inflight k + if h = k then 1 else 0 := by
  simp [State.inflight_eq_countP, List.countP_singleton]

/-- A completed command was one more of its host's, and of no other host's. -/
theorem State.inflight_of_complete {s : State} {c : Pending} {rest : List Pending} (v : Byte)
    (hp : s.pending = c :: rest) (k : Nat) :
    s.inflight k = (s.complete v).inflight k + if c.host = k then 1 else 0 := by
  simp [State.inflight_eq_countP, hp, List.countP_cons]

/-- A completion answers the command's host, and no other host. -/
theorem State.responsesTo_complete {s : State} {c : Pending} {rest : List Pending} (v : Byte)
    (hp : s.pending = c :: rest) (k : Nat) :
    (s.complete v).responsesTo k = s.responsesTo k + if c.host = k then 1 else 0 := by
  simp [State.responsesTo, State.complete_responses_of_cons s v c rest hp, List.countP_singleton]

/-- One host's account, given how many of its commands are pending and how many responses it has. -/
structure HostPort.Accounted (p : HostPort) (inflight responses : Nat) : Prop where
  issued_eq : p.issued = p.cpos + inflight + p.discarded.length
  issued_le : p.issued ≤ p.program.length
  responded : responses = p.cpos

/-- The hosts' invariant is every host's account, and a host for every pending command. -/
theorem hostInv_iff (s : State) :
    HostInv s ↔
      (∀ (h : Nat) (p : HostPort), s.hosts[h]? = some p →
        p.Accounted (s.inflight h) (s.responsesTo h)) ∧
      ∀ c ∈ s.pending, c.host < s.hosts.length where
  mp hs :=
    ⟨fun h p hp => ⟨hs.accounted h p hp, hs.issued_le h p hp, hs.responded h p hp⟩, hs.issuer⟩
  mpr hs := ⟨fun h p hp => (hs.1 h p hp).issued_eq, fun h p hp => (hs.1 h p hp).issued_le,
    fun h p hp => (hs.1 h p hp).responded, hs.2⟩

/-- The hosts' invariant sees only the pending commands, the responses and the hosts. -/
theorem HostInv.congr {s t : State} (hs : HostInv s) (hp : t.pending = s.pending)
    (hr : t.responses = s.responses) (hh : t.hosts = s.hosts) : HostInv t := by
  rw [hostInv_iff] at hs ⊢
  simpa only [State.inflight_eq_countP, State.responsesTo, hp, hr, hh] using hs

/-- A change of one host's record keeps the invariant when the new record's account is right, the
other hosts' commands and responses are as many as before, and hosts issued what is pending. -/
theorem HostInv.of_set_host {s t : State} {h : Nat} {q : HostPort} (hs : HostInv s)
    (hhosts : t.hosts = s.hosts.set h q) (hq : q.Accounted (t.inflight h) (t.responsesTo h))
    (hother : ∀ k, h ≠ k → t.inflight k = s.inflight k ∧ t.responsesTo k = s.responsesTo k)
    (hissuer : ∀ c ∈ t.pending, c.host < s.hosts.length) : HostInv t := by
  obtain ⟨hacc, _⟩ := (hostInv_iff s).mp hs
  refine (hostInv_iff t).mpr ⟨fun k p hp => ?_, by simpa [hhosts] using hissuer⟩
  rw [hhosts, List.getElem?_set] at hp
  split at hp
  · next hk =>
    subst hk
    split at hp
    · cases hp
      exact hq
    · cases hp
  · next hk =>
    obtain ⟨hi, hr⟩ := hother k hk
    rw [hi, hr]
    exact hacc k p hp

theorem HostInv.popMove {s : State} (hs : HostInv s) : HostInv s.popMove :=
  hs.congr rfl rfl rfl

/-- Every queued command is a host's when the host it is queued for exists. -/
theorem HostInv.issuer_enqueue {s : State} {h : Nat} {p : HostPort} (hs : HostInv s)
    (hp : s.hosts[h]? = some p) (w : CmdWord) :
    ∀ c ∈ (s.enqueue h w).pending, c.host < s.hosts.length := by
  intro c hc
  rcases List.mem_append.mp hc with hc | hc
  · exact hs.issuer c hc
  · obtain rfl := List.mem_singleton.mp hc
    exact (List.getElem?_eq_some_iff.mp hp).1

/-- Queueing a command of host `h` and setting its record keeps the account when the record's own
account counts one pending command more. -/
theorem HostInv.enqueue_setHost {s : State} {h : Nat} {p q : HostPort} (hs : HostInv s)
    (hp : s.hosts[h]? = some p) (w : CmdWord)
    (hq : q.Accounted (s.inflight h + 1) (s.responsesTo h)) :
    HostInv ((s.enqueue h w).setHost h q) := by
  have hinf (k : Nat) : ((s.enqueue h w).setHost h q).inflight k =
      s.inflight k + if h = k then 1 else 0 := s.inflight_enqueue h k w
  refine hs.of_set_host (h := h) (q := q) rfl ?_ (fun k hk => ⟨?_, rfl⟩) (hs.issuer_enqueue hp w)
  · rw [hinf, if_pos rfl]
    exact hq
  · rw [hinf, if_neg hk, Nat.add_zero]

theorem HostInv.hostIssue {s : State} (hs : HostInv s) (h : Nat) : HostInv (s.hostIssue h) := by
  rcases s.hostIssue_cases h with he | ⟨p, w, hp, hw, he⟩ <;> rw [he]
  · exact hs
  · obtain ⟨hissued, _, hresp⟩ := ((hostInv_iff s).mp hs).1 h p hp
    refine hs.enqueue_setHost hp w ⟨?_, (List.getElem?_eq_some_iff.mp hw).1, hresp⟩
    simp only
    omega

theorem HostInv.hostReissue {s : State} (hs : HostInv s) (h : Nat) :
    HostInv (s.hostReissue h) := by
  rcases s.hostReissue_cases h with he | ⟨p, w, rest, hp, hd, he⟩ <;> rw [he]
  · exact hs
  · obtain ⟨hissued, hle, hresp⟩ := ((hostInv_iff s).mp hs).1 h p hp
    refine hs.enqueue_setHost hp w ⟨?_, hle, hresp⟩
    rw [hd, List.length_cons] at hissued
    simp only
    omega

theorem State.hostRead_of_none {s : State} {h : Nat} (r : HostReg) (hp : s.hosts[h]? = none) :
    s.hostRead h r = s := by
  rw [State.hostRead, List.modify_eq_self (List.getElem?_eq_none_iff.mp hp)]

theorem State.hostRead_of_some {s : State} {h : Nat} {p : HostPort} (r : HostReg)
    (hp : s.hosts[h]? = some p) :
    s.hostRead h r = s.setHost h { p with reads := p.reads ++ [(r, s.hostView r)] } := by
  rw [State.hostRead, modify_eq_set_of_getElem? _ hp, State.setHost]

theorem HostInv.hostRead {s : State} (hs : HostInv s) (h : Nat) (r : HostReg) :
    HostInv (s.hostRead h r) := by
  cases hp : s.hosts[h]? with
  | none => rwa [State.hostRead_of_none r hp]
  | some p =>
    rw [State.hostRead_of_some r hp]
    obtain ⟨hissued, hle, hresp⟩ := ((hostInv_iff s).mp hs).1 h p hp
    exact hs.of_set_host rfl ⟨hissued, hle, hresp⟩ (fun _ _ => ⟨rfl, rfl⟩) hs.issuer

theorem HostInv.complete {s : State} (hs : HostInv s) (v : Byte) : HostInv (s.complete v) := by
  cases hpend : s.pending with
  | nil =>
    rw [State.complete_of_nil v hpend]
    exact hs.congr rfl rfl rfl
  | cons c rest =>
    obtain ⟨hacc, hissuer⟩ := (hostInv_iff s).mp hs
    rw [hpend] at hissuer
    have hp := List.getElem?_eq_getElem (hissuer c List.mem_cons_self)
    have hinf := State.inflight_of_complete v hpend
    have hresp := State.responsesTo_complete v hpend
    refine hs.of_set_host (h := c.host)
      ((s.complete_hosts_of_cons v c rest hpend).trans (modify_eq_set_of_getElem? _ hp)) ?_
      (fun k hk => ⟨?_, ?_⟩) fun d hd => hissuer d (List.mem_cons_of_mem c ?_)
    · obtain ⟨hissued, hle, hresponded⟩ := hacc _ _ hp
      have hinf := hinf c.host
      have hresp := hresp c.host
      rw [if_pos rfl] at hinf hresp
      refine ⟨?_, hle, ?_⟩
      · simp only [HostPort.advance_issued, HostPort.advance_cpos, HostPort.advance_discarded]
        omega
      · rw [hresp, hresponded, HostPort.advance_cpos]
    · simp [hinf k, hk]
    · simp [hresp k, hk]
    · simpa [hpend] using hd

theorem State.applyReset_hosts (s : State) :
    s.applyReset.hosts =
      s.hosts.mapIdx fun h p => { p with discarded := p.discarded ++ s.pendingOf h } := by
  cases h : s.lutImpl <;>
    simp [State.applyReset, State.resetEngine, State.discardPending, State.pendingOf, h]

/-- Reset moves each host's pending commands into its list of discarded ones. -/
theorem HostInv.applyReset {s : State} (hs : HostInv s) : HostInv s.applyReset := by
  obtain ⟨hacc, _⟩ := (hostInv_iff s).mp hs
  refine (hostInv_iff _).mpr ⟨fun h q hq => ?_, by simp⟩
  rw [State.applyReset_hosts, List.getElem?_mapIdx, Option.map_eq_some_iff] at hq
  obtain ⟨p, hp, rfl⟩ := hq
  obtain ⟨hissued, hle, hresp⟩ := hacc h p hp
  refine ⟨?_, hle, by simpa [State.responsesTo] using hresp⟩
  have hnone : s.applyReset.inflight h = 0 := by simp [State.inflight_eq_countP]
  rw [hnone, List.length_append]
  simp only [State.inflight] at hissued ⊢
  omega

/-- Settles O41, by the agent that moves. -/
theorem stepKeepsHostInv : Obligations.StepKeepsHostInv := by
  unfold Obligations.StepKeepsHostInv
  intro s t hs hstep
  have hpop := hs.popMove
  rcases step_cases s with ⟨h, _, he⟩ | ⟨h, _, he⟩ | ⟨h, r, _, he⟩ | ⟨_, _, he⟩ | ⟨_, _, _, _, he⟩ |
    ⟨_, v, _, _, _, _, he⟩ | ⟨_, he⟩ | ⟨_, he⟩ <;> cases he.symm.trans hstep
  · exact hpop.hostIssue h
  · exact hpop.hostReissue h
  · exact hpop.hostRead h r
  · exact hpop
  · exact hpop
  · exact hpop.complete v
  · exact hpop.congr (by simp) (by simp) (by simp)
  · exact hpop.applyReset

/-! ### What a command changes -/

/-- Settles O23: a completion advances the issuer's record and no other (R15). -/
theorem cposAdvancesByOne : Obligations.CposAdvancesByOne := by
  unfold Obligations.CposAdvancesByOne
  intro i s c rest p hpend hheld hp
  have hhosts := s.complete_hosts_of_cons (s.commandValue i) c rest hpend
  refine ⟨_, exec_of_not_held hheld, ?_, fun h hne => ?_⟩
  · simp [hhosts, hp, HostPort.advance]
  · simp [hhosts, hne.symm]

/-- Settles O24: a held command changes nothing; a completion touches `RESULT`, `RESULT_VALID`, the
queue, the responses and a host's `cpos`. -/
theorem commandFrame : Obligations.CommandFrame := by
  unfold Obligations.CommandFrame
  intro i s t he
  rcases exec_cases i s with ⟨_, h⟩ | ⟨_, v, h⟩ <;> cases h.symm.trans he
  · exact ⟨rfl, rfl, rfl, rfl, rfl, rfl, fun _ => rfl, rfl, rfl, rfl, rfl, ⟨[], by simp⟩, .inl rfl⟩
  · have hosts {β : Type} (f : HostPort → β) (hf : ∀ p, f p.advance = f p) :=
      State.complete_hosts_map f hf s v
    obtain ⟨himpl, hlut, hready, hidx, hdraw⟩ := s.complete_sameTable v
    exact ⟨himpl, hlut, hready, hidx, hdraw, s.complete_schedule v,
      (s.complete_sameTable v).memRead, hosts _ fun _ => rfl, hosts _ fun _ => rfl,
      hosts _ fun _ => rfl, hosts _ fun _ => rfl,
      s.complete_responses_prefix v, .inr (s.complete_pending v)⟩

/-- A command's value does not depend on what the result registers held. -/
theorem State.commandValue_result (s : State) (old : Byte) (valid : Bit) (i : Instr) :
    { s with result := old, resultValid := valid }.commandValue i = s.commandValue i := by
  cases i <;> rfl

/-- Settles O25: commands complete with a value of their own, and `step_sameTable` has the rest. -/
theorem whoWritesWhichState : Obligations.WhoWritesWhichState := by
  unfold Obligations.WhoWritesWhichState
  refine ⟨fun i s hheld => ⟨s.commandValue i, fun old valid => ?_⟩, fun s t hs hb hr => ?_⟩
  · have hheld' : { s with result := old, resultValid := valid }.holds i = false := by
      cases i <;> exact hheld
    refine ⟨_, exec_of_not_held hheld', ?_⟩
    simp [State.commandValue_result]
  · have h := step_sameTable hb hr hs
    exact ⟨h.lut, h.lutReady, h.buildIdx⟩

/-- Settles O47: the build and reset leave the parameter, and other steps the whole table. -/
theorem parameterNeverChanges : Obligations.ParameterNeverChanges := by
  unfold Obligations.ParameterNeverChanges
  intro s t hs
  by_cases hb : s.nextMove = .build
  · cases (step_of_build hb).symm.trans hs
    simp
  by_cases hr : s.nextMove = .reset
  · cases (step_of_reset hr).symm.trans hs
    simp
  · exact (step_sameTable hb hr hs).lutImpl

/-! ### The invariants at reset and over runs -/

theorem resetFor_tableInv (impl : LutImpl) : TableInv (State.resetFor impl) := by
  cases impl with
  | rom => exact tableInv_of_rom rfl rfl rfl rfl
  | builtAtReset => exact tableInv_of_unbuilt rfl rfl rfl rfl

theorem resetFor_hostInv (impl : LutImpl) : HostInv (State.resetFor impl) := by
  refine (hostInv_iff _).mpr ⟨fun h p hp => ?_, by simp [State.resetFor]⟩
  obtain rfl : HostPort.fresh = p := by
    obtain ⟨_, hp⟩ := List.getElem?_eq_some_iff.mp hp
    simpa [State.resetFor] using hp
  exact ⟨rfl, Nat.le_refl 0, rfl⟩

/-- Settles O38, one invariant after the other. -/
theorem resetMeetsTheInvariants : Obligations.ResetMeetsTheInvariants := by
  unfold Obligations.ResetMeetsTheInvariants
  exact fun impl => ⟨resetFor_tableInv impl, ⟨fun _ => rfl, Nat.zero_le 32⟩, resetFor_hostInv impl⟩

/-- A run of `k + 1` steps that ends in a next state is a step and a run of `k`. -/
theorem run_succ_eq_next {k : Nat} {s t : State} (hrun : run (k + 1) s = .next t) :
    ∃ u, step s = .next u ∧ run k u = .next t := by
  rw [run] at hrun
  split at hrun
  · next u hu => exact ⟨u, hu, hrun⟩
  · cases hrun
  · cases hrun

/-- What every step keeps, every run keeps. -/
theorem run_keeps {I : State → Prop} (hstep : ∀ s t, I s → step s = .next t → I t) {k : Nat}
    {s t : State} (hs : I s) (hrun : run k s = .next t) : I t := by
  induction k generalizing s with
  | zero =>
    cases hrun
    exact hs
  | succ k ih =>
    obtain ⟨u, hu, hrun⟩ := run_succ_eq_next hrun
    exact ih (hstep s u hs hu) hrun

/-- Settles O28: a run from reset keeps the table's invariant. -/
theorem readyTableHoldsParities : Obligations.ReadyTableHoldsParities := by
  unfold Obligations.ReadyTableHoldsParities
  refine ⟨fun impl hosts schedule k t hrun hready a => ?_, by decide, by decide, by decide⟩
  have hload : TableInv ((State.resetFor impl).load hosts schedule) :=
    TableInv.congr (s := State.resetFor impl) rfl rfl rfl rfl (resetFor_tableInv impl)
  exact (run_keeps stepKeepsTableInv hload hrun).memRead hready a

theorem TableInv.buildEnabled_of_ready {s : State} (h : TableInv s) (hr : s.lutReady = 1#1) :
    s.buildEnabled = false := by
  have := h.ready_iff.mp hr
  simp [State.buildEnabled, this]

/-- Settles O30: a ready table's build is not enabled. -/
theorem publishedTableIsFixed : Obligations.PublishedTableIsFixed := by
  unfold Obligations.PublishedTableIsFixed
  intro s t h hready hr hs
  have hsame : SameTable s t := by
    by_cases hb : s.nextMove = .build
    · cases (step_of_build hb).symm.trans hs
      have hpop : TableInv s.popMove := s.popMove_sameTable.tableInv h
      rw [State.buildStep_of_not_enabled _ (hpop.buildEnabled_of_ready hready)]
      exact s.popMove_sameTable
    · exact step_sameTable hb hr hs
  exact ⟨hsame.lutReady.trans hready, hsame.lut,
    fun a => (hsame.memRead a).trans (h.memRead hready a)⟩

/-- Settles O39: a command's value is at most 32, and reset clears both registers. -/
theorem stepKeepsResultInv : Obligations.StepKeepsResultInv := by
  unfold Obligations.StepKeepsResultInv
  intro s t h hs
  by_cases hr : s.nextMove = .reset
  · cases (step_of_reset hr).symm.trans hs
    constructor <;> simp
  rcases step_keeps_result_or_completes hr hs with ⟨hres, hval, _⟩ | ⟨c, _, _, _, rfl⟩
  · exact ⟨fun hv => hres.trans (h.zero_while_invalid (hval ▸ hv)), hres ▸ h.result_le⟩
  · refine ⟨fun hv => absurd hv (by simp), ?_⟩
    rw [State.complete_result]
    exact s.commandValue_le (decode c.word)

/-- Settles O40: but for reset, only a completion writes `RESULT_VALID`. -/
theorem resultValidFollowsCompletion : Obligations.ResultValidFollowsCompletion := by
  unfold Obligations.ResultValidFollowsCompletion
  intro s t hr hs
  rcases step_keeps_result_or_completes hr hs with ⟨_, hval, _⟩ | ⟨c, rest, hp, _, rfl⟩
  · refine ⟨hval.trans, fun h0 h1 => ?_⟩
    rw [hval, h0] at h1
    exact absurd h1 (by decide)
  · refine ⟨fun _ => State.complete_resultValid _ _, fun _ _ => ?_⟩
    rw [State.complete_responses_of_cons s.popMove _ c rest hp, List.length_append]
    rfl

/-! ### The hosts' moves -/

/-- Settles O42: a read only sets the record of the host that reads. -/
theorem hostReadsHaveNoSideEffect : Obligations.HostReadsHaveNoSideEffect := by
  unfold Obligations.HostReadsHaveNoSideEffect
  intro s h r p hm hp
  rw [step_of_read hm, State.hostRead_of_some (s := s.popMove) r hp]
  cases r <;> rfl

theorem State.hostIssue_of_some {s : State} {h : Nat} {p : HostPort} {w : CmdWord}
    (hp : s.hosts[h]? = some p) (hw : p.program[p.issued]? = some w) :
    s.hostIssue h = (s.enqueue h w).setHost h { p with issued := p.issued + 1 } := by
  simp [State.hostIssue, hp, hw]

/-- Settles O43: the host exists and has a command left. -/
theorem hostIssuesItsNextCommand : Obligations.HostIssuesItsNextCommand := by
  unfold Obligations.HostIssuesItsNextCommand
  intro s h p w hm hp hw
  rw [step_of_issue hm, State.hostIssue_of_some (s := s.popMove) hp hw]
  rfl

/-- Settles O50: each move's precondition fails. -/
theorem hostMoveWithoutEffect : Obligations.HostMoveWithoutEffect := by
  unfold Obligations.HostMoveWithoutEffect
  refine fun s h => ⟨fun hm hnone => ?_, fun hm hnone => ?_, fun r hm hnone => ?_⟩
  · rw [step_of_issue hm]
    rcases s.popMove.hostIssue_cases h with he | ⟨p, w, hp, hw, _⟩
    · rw [he, State.popMove]
    · have := (List.getElem?_eq_some_iff.mp hw).1
      exact absurd this (hnone p hp).not_gt
  · rw [step_of_reissue hm]
    rcases s.popMove.hostReissue_cases h with he | ⟨p, w, rest, hp, hd, _⟩
    · rw [he, State.popMove]
    · simp [hnone p hp] at hd
  · rw [step_of_read hm, State.hostRead_of_none (s := s.popMove) r hnone, State.popMove]

/-! ### Another table -/

/-- The state with other table contents and another draw of the unwritten entries' free value. -/
def State.withTable (m : Memory) (draw : Nat) (s : State) : State :=
  { s with lut := m, lutDraw := draw }

theorem State.withTable_holds (m : Memory) (draw : Nat) (s : State) (i : Instr) :
    (s.withTable m draw).holds i = s.holds i := by
  cases i <;> rfl

theorem State.complete_withTable (m : Memory) (draw : Nat) (s : State) (v : Byte) :
    (s.withTable m draw).complete v = (s.complete v).withTable m draw := by
  cases h : s.pending <;> simp [State.complete, State.respond, State.setResult, State.withTable, h]

/-- A command whose value does not depend on the table's contents does the same over any other. -/
theorem exec_withTable {i : Instr} {s : State} {m : Memory} {draw : Nat}
    (hv : s.holds i = false → (s.withTable m draw).commandValue i = s.commandValue i) :
    ∃ t, exec i s = .next t ∧ exec i (s.withTable m draw) = .next (t.withTable m draw) := by
  have hh := s.withTable_holds m draw i
  cases h : s.holds i with
  | true => exact ⟨s, exec_of_held h, exec_of_held (hh.trans h)⟩
  | false =>
    refine ⟨_, exec_of_not_held h, ?_⟩
    rw [exec_of_not_held (hh.trans h), hv h, State.complete_withTable]

/-- Settles O34: the one command that reads the table is held. -/
theorem unreadyTableIsNotObservable : Obligations.UnreadyTableIsNotObservable := by
  unfold Obligations.UnreadyTableIsNotObservable
  intro i s m draw h0
  refine exec_withTable fun hheld => ?_
  cases i with
  | parityCached x => simp [State.holds, h0] at hheld
  | countbits x => rfl
  | parity x => rfl
  | parityXorfold x => rfl

/-! ### Another draw of the free value -/

/-- The state with another draw of the unwritten entries' free value. -/
def State.withDraw (draw : Nat) (s : State) : State := s.withTable s.lut draw

theorem State.withDraw_tableInv {s : State} (draw : Nat) (h : TableInv s) :
    TableInv (s.withDraw draw) :=
  TableInv.congr (s := s) rfl rfl rfl rfl h

theorem State.complete_withDraw (draw : Nat) (s : State) (v : Byte) :
    (s.withDraw draw).complete v = (s.complete v).withDraw draw := by
  rw [State.withDraw, State.withDraw, State.complete_withTable, State.complete_lut]

theorem State.hostIssue_withDraw (draw : Nat) (s : State) (h : Nat) :
    (s.withDraw draw).hostIssue h = (s.hostIssue h).withDraw draw := by
  cases hp : s.hosts[h]? with
  | none => simp [State.hostIssue, State.withDraw, State.withTable, hp]
  | some p =>
    cases hw : p.program[p.issued]? <;>
      simp [State.hostIssue, State.withDraw, State.withTable, State.enqueue, State.setHost, hp, hw]

theorem State.hostReissue_withDraw (draw : Nat) (s : State) (h : Nat) :
    (s.withDraw draw).hostReissue h = (s.hostReissue h).withDraw draw := by
  cases hp : s.hosts[h]? with
  | none => simp [State.hostReissue, State.withDraw, State.withTable, hp]
  | some p =>
    cases hd : p.discarded <;>
      simp [State.hostReissue, State.withDraw, State.withTable, State.enqueue, State.setHost, hp,
        hd]

theorem State.hostRead_withDraw (draw : Nat) (s : State) (h : Nat) (r : HostReg) :
    (s.withDraw draw).hostRead h r = (s.hostRead h r).withDraw draw := by
  have hview : (s.withDraw draw).hostView r = s.hostView r := by cases r <;> rfl
  rw [State.hostRead, hview]
  rfl

theorem State.buildStep_withDraw (draw : Nat) (s : State) :
    (s.withDraw draw).buildStep = s.buildStep.withDraw draw := by
  have henabled : (s.withDraw draw).buildEnabled = s.buildEnabled := rfl
  rcases s.buildStep_cases with ⟨h, he⟩ | ⟨h, he⟩ <;> rw [he]
  · exact State.buildStep_of_not_enabled _ (henabled.trans h)
  · exact State.buildStep_of_enabled _ (henabled.trans h)

/-- Reset of a built table draws the free value anew, from a counter of its own (R13, R74). -/
theorem State.applyReset_withDraw (draw : Nat) (s : State) :
    ∃ draw', (s.withDraw draw).applyReset = s.applyReset.withDraw draw' := by
  cases himpl : s.lutImpl with
  | rom =>
    refine ⟨draw, ?_⟩
    simp only [State.applyReset, State.resetEngine, State.withDraw, State.withTable, himpl]
    rfl
  | builtAtReset =>
    refine ⟨draw + 1, ?_⟩
    simp only [State.applyReset, State.resetEngine, State.withDraw, State.withTable, himpl]
    rfl

/-- With the table's invariant a command's value does not depend on the draw: `PARITY.CACHED`
performs only when every entry has been written. -/
theorem TableInv.commandValue_withDraw {s : State} (h : TableInv s) (draw : Nat) {i : Instr}
    (hheld : s.holds i = false) : (s.withDraw draw).commandValue i = s.commandValue i := by
  cases i with
  | parityCached x =>
    have hready : s.lutReady = 1#1 := by simpa [State.holds] using hheld
    have hread (a : Subword) : (s.withDraw draw).memRead a = s.memRead a :=
      ((State.withDraw_tableInv draw h).memRead hready a).trans (h.memRead hready a).symm
    simp only [State.commandValue, State.cachedParity, hread]
  | countbits x => rfl
  | parity x => rfl
  | parityXorfold x => rfl

theorem engineStep_withDraw {s t : State} (h : TableInv s) (draw : Nat)
    (hs : engineStep s = .next t) :
    engineStep (s.withDraw draw) = .next (t.withDraw draw) := by
  have hfetch : (s.withDraw draw).fetch = s.fetch := rfl
  cases hf : s.fetch with
  | none =>
    cases (engineStep_of_none s hf).symm.trans hs
    exact engineStep_of_none _ (hfetch.trans hf)
  | some i =>
    rw [engineStep_of_fetch _ i (hfetch.trans hf)]
    obtain ⟨u, hu, hu'⟩ := exec_withTable (h.commandValue_withDraw draw (i := i))
    rw [engineStep_of_fetch s i hf] at hs
    cases hu.symm.trans hs
    rw [State.withDraw, hu', State.withDraw, (exec_sameTable hu).lut]

/-- One step from states that differ only in the draw ends in states that differ only in it. -/
theorem step_withDraw {s t : State} (h : TableInv s) (draw : Nat) (hs : step s = .next t) :
    ∃ draw', step (s.withDraw draw) = .next (t.withDraw draw') := by
  have hmove : (s.withDraw draw).nextMove = s.nextMove := rfl
  have hpop : (s.withDraw draw).popMove = s.popMove.withDraw draw := rfl
  cases hm : s.nextMove with
  | issue k =>
    cases (step_of_issue hm).symm.trans hs
    exact ⟨draw, by rw [step_of_issue (hmove.trans hm), hpop, State.hostIssue_withDraw]⟩
  | reissue k =>
    cases (step_of_reissue hm).symm.trans hs
    exact ⟨draw, by rw [step_of_reissue (hmove.trans hm), hpop, State.hostReissue_withDraw]⟩
  | read k r =>
    cases (step_of_read hm).symm.trans hs
    exact ⟨draw, by rw [step_of_read (hmove.trans hm), hpop, State.hostRead_withDraw]⟩
  | engine =>
    rw [step_of_engine hm] at hs
    refine ⟨draw, ?_⟩
    rw [step_of_engine (hmove.trans hm), hpop]
    exact engineStep_withDraw (s.popMove_sameTable.tableInv h) draw hs
  | build =>
    cases (step_of_build hm).symm.trans hs
    exact ⟨draw, by rw [step_of_build (hmove.trans hm), hpop, State.buildStep_withDraw]⟩
  | reset =>
    cases (step_of_reset hm).symm.trans hs
    obtain ⟨draw', hd⟩ := s.popMove.applyReset_withDraw draw
    exact ⟨draw', by rw [step_of_reset (hmove.trans hm), hpop, hd]⟩

/-- Settles O35, by induction on the number of steps, with the table's invariant kept along. -/
theorem freeEntryValueIsNeverObserved : Obligations.FreeEntryValueIsNeverObserved := by
  unfold Obligations.FreeEntryValueIsNeverObserved
  intro k
  induction k with
  | zero =>
    intro s t draw _ hrun
    cases hrun
    exact ⟨draw, rfl⟩
  | succ k ih =>
    intro s t draw h hrun
    obtain ⟨u, hu, hrun⟩ := run_succ_eq_next hrun
    obtain ⟨draw₁, hstep⟩ := step_withDraw h draw hu
    obtain ⟨draw₂, hlast⟩ := ih u t draw₁ (stepKeepsTableInv s u h hu) hrun
    exact ⟨draw₂, (run_succ_of_next k hstep).trans hlast⟩

end Sys2Proof.Machine

/-!
PROOFS. The statements of 20_memory.md: the step of the engine, and the order in which commands are
issued and completed.
-/

namespace Sys2Proof.Machine

/-! ### The oldest pending command -/

theorem State.fetch_of_cons {s : State} {c : Pending} {rest : List Pending}
    (hp : s.pending = c :: rest) : s.fetch = some (decode c.word) := by
  simp [State.fetch, hp]

theorem State.fetch_of_nil {s : State} (hp : s.pending = []) : s.fetch = none := by
  simp [State.fetch, hp]

/-- Settles O5: the engine performs what it fetches. -/
theorem stepPerformsDecodedCommand : Obligations.StepPerformsDecodedCommand := by
  unfold Obligations.StepPerformsDecodedCommand
  refine fun s hm => ⟨fun c rest hp => ?_, fun hp => ?_⟩
  · exact (step_of_engine hm).trans (engineStep_of_fetch s.popMove _ (State.fetch_of_cons hp))
  · exact (step_of_engine hm).trans (engineStep_of_none s.popMove (State.fetch_of_nil hp))

/-! ### The end of the queue -/

theorem State.hostIssue_queues_at_most_one (s : State) (h : Nat) :
    ∃ new : List Pending, new.length ≤ 1 ∧ (s.hostIssue h).pending = s.pending ++ new := by
  rcases s.hostIssue_cases h with he | ⟨_, w, _, _, he⟩ <;> rw [he]
  · exact ⟨[], by simp⟩
  · exact ⟨[⟨h, w⟩], by simp⟩

theorem State.hostReissue_queues_at_most_one (s : State) (h : Nat) :
    ∃ new : List Pending, new.length ≤ 1 ∧ (s.hostReissue h).pending = s.pending ++ new := by
  rcases s.hostReissue_cases h with he | ⟨_, w, _, _, _, he⟩ <;> rw [he]
  · exact ⟨[], by simp⟩
  · exact ⟨[⟨h, w⟩], by simp⟩

/-- Settles O26, by the agent that moves: the hosts only add to the queue's end, the engine completes
the command at its front, and no other agent touches it. -/
theorem commandsCompleteInIssueOrder : Obligations.CommandsCompleteInIssueOrder := by
  unfold Obligations.CommandsCompleteInIssueOrder
  intro s t hr hs
  rcases step_cases s with ⟨h, _, he⟩ | ⟨h, _, he⟩ | ⟨h, r, _, he⟩ | ⟨_, _, he⟩ | ⟨_, _, _, _, he⟩ |
    ⟨i, v, _, hf, _, _, he⟩ | ⟨_, he⟩ | ⟨hm, _⟩
  case inr.inr.inr.inr.inr.inr.inr => exact absurd hm hr
  all_goals cases he.symm.trans hs
  · exact .inl ⟨by simp, by simp, by simp, s.popMove.hostIssue_queues_at_most_one h⟩
  · exact .inl ⟨by simp, by simp, by simp, s.popMove.hostReissue_queues_at_most_one h⟩
  · exact .inl ⟨rfl, rfl, rfl, [], by simp⟩
  · exact .inl ⟨rfl, rfl, rfl, [], by simp⟩
  · exact .inl ⟨rfl, rfl, rfl, [], by simp⟩
  · obtain ⟨c, rest, hp, _⟩ := State.fetch_eq_some hf
    refine .inr ⟨c, rest, hp, by simp [hp], ?_, by simp⟩
    rw [State.complete_result, State.complete_responses_of_cons s.popMove v c rest hp,
      State.popMove_responses]
  · exact .inl ⟨by simp, by simp, by simp, [], by simp⟩

/-! ### Issuing in a given order -/

/-- What one issue of host `h` does to any host `k`, itself or another: as many commands as `k`
stands in the list `[h]` are queued from its program, and its issue position moves on by as many. -/
theorem State.hostIssue_hosts_and_pendingOf {s : State} {h k : Nat} {p r : HostPort}
    (hp : s.hosts[h]? = some p) (hlt : p.issued < p.program.length)
    (hr : s.hosts[k]? = some r) :
    (s.hostIssue h).hosts[k]? = some { r with issued := r.issued + [h].count k } ∧
      (s.hostIssue h).pendingOf k =
        s.pendingOf k ++ (r.program.drop r.issued).take ([h].count k) := by
  rw [State.hostIssue_of_some hp (List.getElem?_eq_getElem hlt)]
  by_cases hk : h = k
  · subst hk
    obtain rfl : p = r := Option.some.inj (hp.symm.trans hr)
    have hh : h < s.hosts.length := (List.getElem?_eq_some_iff.mp hp).1
    simp [State.pendingOf, hh, List.take_one_drop_eq_of_lt_length hlt]
  · simp [State.pendingOf, hk, hr]

theorem State.hostIssue_pending_hosts {s : State} {h : Nat} {p : HostPort}
    (hp : s.hosts[h]? = some p) (hlt : p.issued < p.program.length) :
    (s.hostIssue h).pending.map Pending.host = s.pending.map Pending.host ++ [h] := by
  simp [State.hostIssue_of_some hp (List.getElem?_eq_getElem hlt)]

/-- Settles O27, by induction on the list of hosts: the first host issues, and the others after it
stand in the rest of the list. -/
theorem anyInterleavingIsAnIssueOrder : Obligations.AnyInterleavingIsAnIssueOrder := by
  unfold Obligations.AnyInterleavingIsAnIssueOrder
  intro s hs later
  induction hs generalizing s with
  | nil => exact fun hsched _ => ⟨s, rfl, by simp, by simp, rfl, rfl, hsched⟩
  | cons h hs ih =>
    intro hsched hleft
    have hcount (k : Nat) : (h :: hs).count k = [h].count k + hs.count k :=
      List.count_append (l₁ := [h])
    obtain ⟨p, hp, hple⟩ := hleft h List.mem_cons_self
    have hlt : p.issued < p.program.length := by
      rw [List.count_cons_self] at hple
      omega
    have hstep : step s = .next (s.popMove.hostIssue h) :=
      step_of_issue (by simp [State.nextMove, hsched])
    have hissue {k : Nat} {r : HostPort} (hr : s.hosts[k]? = some r) :=
      State.hostIssue_hosts_and_pendingOf (s := s.popMove) hp hlt hr
    have hsched' : (s.popMove.hostIssue h).schedule = hs.map Move.issue ++ later := by
      simp [hsched]
    have hleft' : ∀ k ∈ hs, ∃ r : HostPort, (s.popMove.hostIssue h).hosts[k]? = some r ∧
        r.issued + hs.count k ≤ r.program.length := by
      intro k hk
      obtain ⟨r, hr, hrle⟩ := hleft k (List.mem_cons_of_mem h hk)
      rw [hcount, ← Nat.add_assoc] at hrle
      exact ⟨_, (hissue hr).1, hrle⟩
    obtain ⟨t, hrun, horder, hof, hresp, hres, hlater⟩ := ih _ hsched' hleft'
    refine ⟨t, (run_succ_of_next _ hstep).trans hrun, ?_, fun k r hr => ?_, ?_, ?_, hlater⟩
    · rw [horder, State.hostIssue_pending_hosts (s := s.popMove) hp hlt]
      simp
    · obtain ⟨hhost, hpend⟩ := hissue hr
      rw [hof k _ hhost, hpend, hcount, List.take_add, List.drop_drop, List.append_assoc]
      rfl
    · simpa using hresp
    · simpa using hres

end Sys2Proof.Machine

/-!
PROOFS. The statements of 30_encoding.md: the decoder and the encoder, the opcode table, the
response of a command, the assembler and the disassembler.
-/

namespace Sys2Proof

/-! ### The operation codes -/

@[simp] theorem Op.ofBits_bits (op : Op) : Op.ofBits op.bits = op := by
  cases op <;> decide

@[simp] theorem Op.bits_ofBits (b : OpBits) : (Op.ofBits b).bits = b := by
  revert b
  decide

/-- An `OP` value selects the operation whose code it is (R40). -/
theorem Op.ofBits_eq_iff (b : OpBits) (op : Op) : Op.ofBits b = op ↔ b = op.bits :=
  ⟨fun h => h ▸ (Op.bits_ofBits b).symm, fun h => h ▸ Op.ofBits_bits op⟩

/-! ### A command and its fields -/

@[simp] theorem Instr.op_ofOp (op : Op) (x : Word64) : (Instr.ofOp op x).op = op := by
  cases op <;> rfl

@[simp] theorem Instr.operand_ofOp (op : Op) (x : Word64) : (Instr.ofOp op x).operand = x := by
  cases op <;> rfl

@[simp] theorem Instr.ofOp_op_operand (i : Instr) : Instr.ofOp i.op i.operand = i := by
  cases i <;> rfl

@[simp] theorem Instr.wellFormed_eq_true (i : Instr) : i.wellFormed = true := by
  cases i <;> rfl

@[simp] theorem decode_op (w : CmdWord) : (decode w).op = Op.ofBits (opField w) :=
  Instr.op_ofOp _ _

@[simp] theorem decode_operand (w : CmdWord) : (decode w).operand = operandField w :=
  Instr.operand_ofOp _ _

theorem opField_append_operandField (w : CmdWord) : opField w ++ operandField w = w :=
  BitVec.extractLsb'_append_extractLsb'

/-- A command is found again from its word (R38). -/
@[simp] theorem decode_encode (i : Instr) : decode (encode i) = i := by
  rw [decode, encode, Laws.Fields.opField_append, Laws.Fields.operandField_append, Op.ofBits_bits,
    Instr.ofOp_op_operand]

/-- No bit of a word is lost in its command (R43). -/
@[simp] theorem encode_decode (w : CmdWord) : encode (decode w) = w := by
  rw [encode, decode_op, decode_operand, Op.bits_ofBits, opField_append_operandField]

/-- Settles O3: the fields of a word are its command's operation code and operand, both ways. -/
theorem decodeAndEncodeAgree : Obligations.DecodeAndEncodeAgree := by
  unfold Obligations.DecodeAndEncodeAgree
  exact ⟨decode_encode, encode_decode⟩

/-! ### The opcode table -/

/-- The table's mask keeps the `OP` field and clears the `OPERAND` field. -/
theorem and_opcodeMask (w : CmdWord) : w &&& 0x30000000000000000#66 = opField w ++ 0#64 := by
  calc w &&& 0x30000000000000000#66
      = (opField w ++ operandField w) &&& (0b11#2 ++ 0#64) := by
        rw [opField_append_operandField]; rfl
    _ = opField w ++ 0#64 := by
        rw [BitVec.and_append, BitVec.and_zero]
        exact congrArg (· ++ 0#64) BitVec.and_allOnes

theorem opcodeTable_maskBits : ∀ r ∈ opcodeTable, r.maskBits = 0x30000000000000000#66 := by
  decide

theorem opcodeTable_matchBits : ∀ r ∈ opcodeTable, r.matchBits = r.op.bits ++ 0#64 := by
  decide

/-- A word belongs to a row of the table exactly when its `OP` field is the row's code. -/
theorem and_maskBits_eq_matchBits_iff {r : OpcodeRow} (hr : r ∈ opcodeTable) (w : CmdWord) :
    w &&& r.maskBits = r.matchBits ↔ opField w = r.op.bits := by
  rw [opcodeTable_maskBits r hr, opcodeTable_matchBits r hr, and_opcodeMask, BitVec.append_left_inj]

/-- Settles O2: decoding and the table both go by the `OP` field. -/
theorem opFieldSelectsOperation : Obligations.OpFieldSelectsOperation := by
  unfold Obligations.OpFieldSelectsOperation
  have hop (w : CmdWord) (op : Op) : (decode w).op = op ↔ opField w = op.bits := by
    rw [decode_op, Op.ofBits_eq_iff]
  refine ⟨rfl, opcodeTable_maskBits, fun w => ⟨decode_operand w, hop w _, hop w _, hop w _, hop w _,
    fun r hr => ?_⟩⟩
  rw [and_maskBits_eq_matchBits_iff hr, hop]

end Sys2Proof

namespace Sys2Proof.Machine

/-! ### Every word is a command -/

theorem exec_answers_next (i : Instr) (s : State) : ∃ t, exec i s = .next t := by
  rcases exec_cases i s with ⟨_, h⟩ | ⟨_, v, h⟩
  · exact ⟨s, h⟩
  · exact ⟨s.complete v, h⟩

theorem decodeNumber_of_lt {n : Nat} (h : n < 2 ^ 66) :
    decodeNumber n = .ok (decode (BitVec.ofNat 66 n)) :=
  if_pos h

/-- Settles O4: a 66-bit number decodes, and no command's meaning is a fault or a refusal. -/
theorem everyWordIsALegalCommand : Obligations.EveryWordIsALegalCommand := by
  unfold Obligations.EveryWordIsALegalCommand
  exact fun n hn =>
    ⟨_, decodeNumber_of_lt hn, Instr.wellFormed_eq_true _, fun s => exec_answers_next _ s⟩

/-! ### The response of a command -/

theorem parityByte_eq_zero_or_one (p : Bit) : parityByte p = 0x00#8 ∨ parityByte p = 0x01#8 := by
  revert p
  decide

/-- A parity command's value is 0 or 1, whatever the table holds (R61). -/
theorem State.commandValue_eq_zero_or_one (s : State) {i : Instr} (h : i.op ≠ .countbits) :
    s.commandValue i = 0x00#8 ∨ s.commandValue i = 0x01#8 := by
  cases i with
  | countbits x => exact absurd rfl h
  | parity x => exact parityByte_eq_zero_or_one _
  | parityCached x => exact parityByte_eq_zero_or_one _
  | parityXorfold x => exact parityByte_eq_zero_or_one _

/-- Settles O22: a completion responds to the issuer with the command's value, which is the new
`RESULT`. -/
theorem responseIsResultToIssuer : Obligations.ResponseIsResultToIssuer := by
  unfold Obligations.ResponseIsResultToIssuer
  intro i s c rest hpend hheld
  refine ⟨_, exec_of_not_held hheld, by simp [hpend], ?_, fun _ => ?_, fun hop => ?_⟩ <;>
    rw [State.complete_result]
  · exact State.complete_responses_of_cons s _ c rest hpend
  · exact s.commandValue_le i
  · exact s.commandValue_eq_zero_or_one hop

/-! ### The range of a literal -/

theorem sourceLine_wellFormed_iff (op : Op) (v : Int) :
    SourceLine.wellFormed ⟨op, v⟩ = true ↔ op.literalMin ≤ v ∧ v ≤ op.literalMax := by
  simp [SourceLine.wellFormed]

theorem literalMin_eq (op : Op) :
    op.literalMin = if op = .countbits then -2 ^ 31 else -2 ^ 63 := by
  cases op <;> rfl

theorem literalMax_eq (op : Op) :
    op.literalMax = if op = .countbits then 2 ^ 32 - 1 else 2 ^ 64 - 1 := by
  cases op <;> rfl

theorem assembleSource_of_in_range {op : Op} {v : Int}
    (h : op.literalMin ≤ v ∧ v ≤ op.literalMax) :
    assembleSource ⟨op, v⟩ = .ok (encode (Instr.ofOp op (BitVec.ofInt 64 v))) :=
  if_pos ((sourceLine_wellFormed_iff op v).mpr h)

theorem assembleSource_of_out_of_range {op : Op} {v : Int}
    (h : ¬ (op.literalMin ≤ v ∧ v ≤ op.literalMax)) :
    assembleSource ⟨op, v⟩ = .error .literalOutOfRange :=
  if_neg fun hw => h ((sourceLine_wellFormed_iff op v).mp hw)

theorem toNat_ofInt_64 (v : Int) : ((BitVec.ofInt 64 v).toNat : Int) = v % 2 ^ 64 := by
  rw [BitVec.toNat_ofInt, Int.toNat_of_nonneg (Int.emod_nonneg v (by decide))]
  rfl

/-- The 64-bit pattern of an `int32` value is the sign extension of its 32-bit pattern (R45). -/
theorem ofInt_64_eq_signExtend {v : Int} (hlo : -2 ^ 31 ≤ v) (hhi : v < 2 ^ 31) :
    BitVec.ofInt 64 v = (BitVec.ofInt 32 v).signExtend 64 := by
  have h64 : (BitVec.ofInt 64 v).toInt = v :=
    BitVec.toInt_ofInt_eq_self (by decide) (by omega) (by omega)
  have h32 : (BitVec.ofInt 32 v).toInt = v := BitVec.toInt_ofInt_eq_self (by decide) hlo hhi
  exact BitVec.eq_of_toInt_eq (by rw [h64, BitVec.toInt_signExtend_of_le (by decide), h32])

/-- Settles O48: a line in range assembles to the word of its operation and literal, and the
literal's 64-bit pattern is its value modulo 2^64. -/
theorem literalBecomesOperand : Obligations.LiteralBecomesOperand := by
  unfold Obligations.LiteralBecomesOperand
  intro op v lo hi
  rw [show lo = op.literalMin from (literalMin_eq op).symm,
    show hi = op.literalMax from (literalMax_eq op).symm]
  refine ⟨fun h => ⟨_, assembleSource_of_in_range h, ?_, ?_, fun hop hneg => ?_⟩,
    assembleSource_of_out_of_range⟩ <;> rw [decode_encode]
  · exact Instr.op_ofOp op _
  · rw [Instr.operand_ofOp, toNat_ofInt_64]
  · subst hop
    have hlo : -2 ^ 31 ≤ v := h.1
    rw [Instr.operand_ofOp, ofInt_64_eq_signExtend hlo (by omega)]

/-! ### The tokens of a line -/

/-- The text holds no blank and no start of a comment, so that on a line it is one token or a part
of one. -/
def NoSeparator (t : Text) : Prop := ∀ c ∈ t, isBlank c = false ∧ c ≠ ';'

theorem NoSeparator.append {t u : Text} (ht : NoSeparator t) (hu : NoSeparator u) :
    NoSeparator (t ++ u) := fun c hc =>
  (List.mem_append.mp hc).elim (ht c) (hu c)

theorem tokensFrom_append {t : Text} (ht : NoSeparator t) (rest cur : Text) :
    tokensFrom (t ++ rest) cur = tokensFrom rest (t.reverse ++ cur) := by
  induction t generalizing cur with
  | nil => rfl
  | cons c t ih =>
    have hc : isBlank c = false := (ht c List.mem_cons_self).1
    simp [tokensFrom, hc, ih fun d hd => ht d (List.mem_cons_of_mem c hd)]

theorem stripComment_of_no_semicolon {line : Text} (h : ∀ c ∈ line, c ≠ ';') :
    stripComment line = line :=
  List.takeWhile_eq_self_iff.mpr fun c hc => decide_eq_true (h c hc)

/-- A line of two tokens with one space between them is read as these two tokens. -/
theorem tokensFrom_two_tokens {m l : Text} (hm : NoSeparator m) (hl : NoSeparator l)
    (hm' : m ≠ []) (hl' : l ≠ []) :
    tokensFrom (stripComment (m ++ ' ' :: l)) [] = [m, l] := by
  have hline : ∀ c ∈ m ++ ' ' :: l, c ≠ ';' := by
    intro c hc
    rcases List.mem_append.mp hc with h | h
    · exact (hm c h).2
    · rcases List.mem_cons.mp h with rfl | h
      · decide
      · exact (hl c h).2
  have hlast : tokensFrom l [] = [l] := by
    simpa [tokensFrom, hl'] using tokensFrom_append hl [] []
  have hspace : isBlank ' ' = true := rfl
  rw [stripComment_of_no_semicolon hline, tokensFrom_append hm]
  simp [tokensFrom, hspace, hm', hlast]

/-! ### Mnemonics -/

theorem noSeparator_opMnemonic (op : Op) : NoSeparator (opMnemonic op) := by
  cases op <;> simp [NoSeparator, opMnemonic, isBlank]

theorem opMnemonic_ne_nil (op : Op) : opMnemonic op ≠ [] := by
  cases op <;> decide

theorem parseMnemonic_opMnemonic (op : Op) : parseMnemonic (opMnemonic op) = some op := by
  cases op <;> decide

/-! ### Hexadecimal digits -/

theorem digitValue_hexDigit : ∀ d < 16, digitValue 16 (hexDigit d) = some d := by
  decide

theorem hexDigit_ne_underscore : ∀ d < 16, hexDigit d ≠ '_' := by
  decide

theorem hexDigit_no_separator : ∀ d < 16, isBlank (hexDigit d) = false ∧ hexDigit d ≠ ';' := by
  decide

theorem noSeparator_hexDigits (k n : Nat) : NoSeparator (hexDigits k n) := by
  induction k generalizing n with
  | zero => exact fun c hc => absurd hc List.not_mem_nil
  | succ k ih =>
    refine (ih (n / 16)).append fun c hc => ?_
    rw [List.mem_singleton.mp hc]
    exact hexDigit_no_separator _ (Nat.mod_lt n (by decide))

theorem parseDigits_hexDigit {d : Nat} (hd : d < 16) (cs : Text) (acc : Nat) (afterDigit : Bool) :
    parseDigits 16 (hexDigit d :: cs) acc afterDigit = parseDigits 16 cs (acc * 16 + d) true := by
  simp [parseDigits, hexDigit_ne_underscore d hd, digitValue_hexDigit d hd]

/-- Reading the last `k + 1` digits of `n` appends them to the value read so far. -/
theorem parseDigits_hexDigits (k n : Nat) (cs : Text) (acc : Nat) (afterDigit : Bool) :
    parseDigits 16 (hexDigits (k + 1) n ++ cs) acc afterDigit =
      parseDigits 16 cs (acc * 16 ^ (k + 1) + n % 16 ^ (k + 1)) true := by
  have hd : n % 16 < 16 := Nat.mod_lt n (by decide)
  induction k generalizing n cs with
  | zero => exact parseDigits_hexDigit hd cs acc afterDigit
  | succ k ih =>
    have hvalue : (acc * 16 ^ (k + 1) + n / 16 % 16 ^ (k + 1)) * 16 + n % 16 =
        acc * 16 ^ (k + 2) + n % 16 ^ (k + 2) := by
      rw [Nat.pow_succ' (n := k + 1), Nat.mod_mul]
      ring
    rw [hexDigits, List.append_assoc, ih _ _ (Nat.mod_lt _ (by decide)), List.singleton_append,
      parseDigits_hexDigit hd, hvalue]

theorem parseLiteral_hex (t : Text) : parseLiteral ('0' :: 'x' :: t) = parseNat 16 t := rfl

/-- The 16 digits of a 64-bit value read back as the value. -/
theorem parseLiteral_hexDigits (x : Word64) :
    parseLiteral ('0' :: 'x' :: hexDigits 16 x.toNat) = some (x.toNat : Int) := by
  have hx : x.toNat % 16 ^ 16 = x.toNat := Nat.mod_eq_of_lt x.isLt
  have hdigits : parseDigits 16 (hexDigits 16 x.toNat) 0 false = some x.toNat := by
    have h := parseDigits_hexDigits 15 x.toNat [] 0 false
    rw [List.append_nil, Nat.zero_mul, Nat.zero_add, hx] at h
    rw [h]
    rfl
  rw [parseLiteral_hex, parseNat, hdigits]
  rfl

/-! ### A disassembled line -/

theorem parseLine_disassemble (w : CmdWord) :
    parseLine (disassemble w) = .ok ⟨(decode w).op, (decode w).operand.toNat⟩ := by
  have hprefix : NoSeparator ['0', 'x'] := by simp [NoSeparator, isBlank]
  have htokens := tokensFrom_two_tokens (noSeparator_opMnemonic (decode w).op)
    (hprefix.append (noSeparator_hexDigits 16 (decode w).operand.toNat))
    (opMnemonic_ne_nil _) (List.cons_ne_nil _ _)
  simp only [List.cons_append, List.nil_append] at htokens
  simp only [parseLine, disassemble, htokens, parseMnemonic_opMnemonic, parseLiteral_hexDigits]

theorem assembleLine_disassemble (w : CmdWord) :
    assembleLine (disassemble w) = assembleSource ⟨(decode w).op, (decode w).operand.toNat⟩ := by
  rw [assembleLine, parseLine_disassemble]

/-- An operand, read as a natural number, is out of its mnemonic's range only for `COUNTBITS`, where
it needs more than 32 bits (R46). -/
theorem operand_in_range_iff (op : Op) (x : Word64) :
    (op.literalMin ≤ (x.toNat : Int) ∧ (x.toNat : Int) ≤ op.literalMax) ↔
      (op ≠ .countbits ∨ x.toNat < 2 ^ 32) := by
  have hx := x.isLt
  rw [literalMin_eq, literalMax_eq]
  by_cases hop : op = .countbits
  · simp [hop]
    omega
  · simp [hop]
    omega

/-- Settles O49: the line reads as the word's operation and operand, so its word is the same where
the operand is in range, and it is refused elsewhere. -/
theorem disassemblyAssemblesBack : Obligations.DisassemblyAssemblesBack := by
  unfold Obligations.DisassemblyAssemblesBack
  refine fun w => ⟨fun h => ?_, fun ⟨hop, hx⟩ => ?_⟩ <;> rw [assembleLine_disassemble]
  · rw [assembleSource_of_in_range ((operand_in_range_iff _ _).mpr h), BitVec.ofInt_natCast,
      BitVec.ofNat_toNat, BitVec.setWidth_eq, Instr.ofOp_op_operand, encode_decode]
  · refine assembleSource_of_out_of_range fun h => ?_
    rcases (operand_in_range_iff _ _).mp h with h | h
    · exact h hop
    · exact absurd h (Nat.not_lt.mpr hx)

end Sys2Proof.Machine

/-!
PROOFS. The statements of 40_popcount.md: the value `COUNTBITS` writes, the passes of its loop, and the
operand bits it does not read.
-/

namespace Sys2Proof.Machine

/-! ### The population count -/

theorem countP_range_eq_sum (f : Nat → Bool) (n : Nat) :
    (List.range n).countP f = ∑ i ∈ Finset.range n, (f i).toNat := by
  induction n with
  | zero => rfl
  | succ n ih =>
    rw [List.range_succ, List.countP_append, ih, Finset.sum_range_succ]
    cases h : f n <;> simp [h]

/-- `popcount` is R8's sum over the bits of a value. -/
theorem popcount_eq_sum_bits {n : Nat} (v : BitVec n) :
    popcount v = ∑ i : Fin n, (v.getLsbD i).toNat := by
  rw [popcount, countP_range_eq_sum, Fin.sum_univ_eq_sum_range (fun i => (v.getLsbD i).toNat)]

theorem exec_countbits_eq_popcount (x : Word64) (s : State) :
    exec (.countbits x) s =
      .next (s.complete (BitVec.ofNat 8 (popcount (countOperand x)))) := by
  rw [exec_countbits, countBits_eq_popcount]

/-- Settles O7: the loop of R49 counts the 1-bits of the operand's low half, and that half's bits are
the operand's bits 0 to 31. -/
theorem countbitsWritesPopulationCount : Obligations.CountbitsWritesPopulationCount := by
  unfold Obligations.CountbitsWritesPopulationCount
  refine fun x s => ⟨exec_countbits_eq_popcount x s, ?_⟩
  rw [popcount_eq_sum_bits]
  exact Finset.sum_congr rfl fun i _ => by simp [i.isLt]

/-! ### The passes of the count loop -/

/-- A loop on a value below `2 ^ n` makes at most `n` passes, since each pass halves that bound
(R51). -/
theorem loopPasses_le {w n : Nat} (fuel : Nat) {x : BitVec w} (h : x.toNat < 2 ^ n) :
    loopPasses fuel x ≤ n := by
  induction fuel generalizing n x with
  | zero => exact Nat.zero_le n
  | succ fuel ih =>
    rw [loopPasses]
    split
    · exact Nat.zero_le n
    · next hx =>
      cases n with
      | zero => exact absurd (eq_zero_of_toNat_lt_one h) hx
      | succ n => exact Nat.succ_le_succ (ih (shiftRight_one_lt h))

/-- Passes beyond the 32nd change no count: 32 already accumulate every 1-bit. -/
theorem countLoop_thirtyTwo_add (x : Word32) (k c : Nat) :
    countLoop (32 + k) x c = countLoop 32 x c := by
  have hx : x.toNat < 2 ^ (32 + k) :=
    x.isLt.trans_le (Nat.pow_le_pow_right (by decide) (Nat.le_add_right 32 k))
  rw [countLoop_eq _ x c hx, countLoop_eq 32 x c x.isLt]

/-- A shift that copies the sign bit keeps it, so it makes no negative value zero (R51). -/
theorem sshiftRight_ne_zero_of_msb {w : Nat} {x : BitVec w} (h : x.msb = true) (k : Nat) :
    x.sshiftRight k ≠ 0#w := by
  intro hzero
  have hmsb : (x.sshiftRight k).msb = true := BitVec.msb_sshiftRight.trans h
  simp [hzero] at hmsb

/-- Settles O9: the logical shift clears bit 31, the loop ends within 32 passes, and an arithmetic
shift keeps the sign bit for ever. -/
theorem countLoopEndsByLogicalShift : Obligations.CountLoopEndsByLogicalShift := by
  unfold Obligations.CountLoopEndsByLogicalShift
  refine fun x => ⟨by simp, fun fuel => loopPasses_le fuel x.isLt, countLoop_thirtyTwo_add x,
    fun h => sshiftRight_ne_zero_of_msb ?_⟩
  rwa [BitVec.msb_eq_getLsbD_last]

/-! ### Worked examples and unread bits -/

/-- Settles O1: the six words are closed, so each decodes by evaluation. -/
theorem specWordsDecode : Obligations.SpecWordsDecode := by
  unfold Obligations.SpecWordsDecode
  decide

/-- Zero-extending the low half of an operand leaves what `COUNTBITS` reads of it (R52). -/
theorem countOperand_setWidth_low (x : Word64) :
    countOperand ((x.extractLsb' 0 32).setWidth 64) = countOperand x := by
  ext i hi
  have hwide : i < 64 := by omega
  simp [countOperand, hi, hwide]

/-- Settles O8: `COUNTBITS` depends on its operand only through `countOperand`, which is 0 in R52's
example. -/
theorem countbitsIgnoresHighHalf : Obligations.CountbitsIgnoresHighHalf := by
  unfold Obligations.CountbitsIgnoresHighHalf
  refine ⟨fun x s => ?_, fun s => ?_⟩
  · rw [exec_countbits, exec_countbits, countOperand_setWidth_low]
  · have hlow : countOperand 0xFFFFFFFF00000000#64 = 0#32 := by decide
    rw [exec_countbits_eq_popcount, hlow, popcount_zero]

end Sys2Proof.Machine

/-!
PROOFS. The statements of 41_parity.md: each parity command writes the operand's parity, which is its
population count mod 2.
-/

namespace Sys2Proof.Machine

/-! ### The parity of slices -/

/-- The 1-bits of a slice are those of its low part and those of the part above it. -/
theorem popcount_extractLsb'_add {w : Nat} (v : BitVec w) (i m n : Nat) :
    popcount (v.extractLsb' i (m + n)) =
      popcount (v.extractLsb' i m) + popcount (v.extractLsb' (i + m) n) := by
  rw [popcount, List.range_add, List.countP_append, List.countP_map]
  refine congrArg₂ (· + ·) (List.countP_congr fun j hj => ?_) (List.countP_congr fun j hj => ?_)
  · have hlt : j < m + n := (List.mem_range.mp hj).trans_le (Nat.le_add_right m n)
    simp [hlt, List.mem_range.mp hj]
  · simp [List.mem_range.mp hj, Nat.add_assoc]

theorem par_extractLsb'_add {w : Nat} (v : BitVec w) (i m n : Nat) :
    par (v.extractLsb' i (m + n)) =
      par (v.extractLsb' i m) ^^^ par (v.extractLsb' (i + m) n) := by
  simp only [par, popcount_extractLsb'_add]
  generalize popcount (v.extractLsb' i m) = a
  generalize popcount (v.extractLsb' (i + m) n) = b
  rcases Nat.mod_two_eq_zero_or_one a with ha | ha <;>
    rcases Nat.mod_two_eq_zero_or_one b with hb | hb <;> simp [Nat.add_mod, ha, hb]

/-- One bit is its own parity. -/
@[simp] theorem par_bit (b : Bit) : par b = b := by
  revert b
  decide

/-- Parity is additive: the slices grow bit by bit, and each bit of `a ^^^ b` is the XOR of theirs. -/
theorem par_extractLsb'_xor {w : Nat} (a b : BitVec w) (n : Nat) :
    par ((a ^^^ b).extractLsb' 0 n) = par (a.extractLsb' 0 n) ^^^ par (b.extractLsb' 0 n) := by
  induction n with
  | zero => simp [par, popcount]
  | succ n ih =>
    rw [par_extractLsb'_add (a ^^^ b), par_extractLsb'_add a, par_extractLsb'_add b, ih]
    simp only [par_bit, BitVec.extractLsb'_xor]
    ac_rfl

theorem par_xor {w : Nat} (a b : BitVec w) : par (a ^^^ b) = par a ^^^ par b := by
  simpa only [BitVec.extractLsb'_eq_self] using par_extractLsb'_xor a b w

/-! ### `PARITY` -/

theorem exec_parity_eq_par (x : Word64) (s : State) :
    exec (.parity x) s = .next (s.complete (parityByte (par x))) := by
  rw [exec_parity, serialParity_eq_par]

/-- Settles O11: 64 passes or more are enough for every operand, so the loop accumulates its parity. -/
theorem parityWritesParity : Obligations.ParityWritesParity := by
  unfold Obligations.ParityWritesParity
  refine fun x => ⟨exec_parity_eq_par x, fun k p => ?_⟩
  have hx : x.toNat < 2 ^ (64 + k) :=
    x.isLt.trans_le (Nat.pow_le_pow_right (by decide) (Nat.le_add_right 64 k))
  rw [parityLoop_eq _ x p hx, parityLoop_eq 64 x p x.isLt]

/-! ### `PARITY.XORFOLD` -/

/-- A fold's low bits are the XOR of the two halves they come from (R57). -/
theorem foldStep_extractLsb' (y : Word64) (sh : Nat) :
    (foldStep y sh).extractLsb' 0 sh = y.extractLsb' 0 sh ^^^ y.extractLsb' sh sh := by
  ext i hi
  simp [foldStep]

/-- A fold gathers the parity of its two halves in the low one. -/
theorem par_foldStep (y : Word64) (sh : Nat) :
    par ((foldStep y sh).extractLsb' 0 sh) = par (y.extractLsb' 0 (sh + sh)) := by
  rw [foldStep_extractLsb', par_xor, par_extractLsb'_add, Nat.zero_add]

theorem foldPrefix_succ {j sh : Nat} (h : Config.foldShifts[j]? = some sh) (x : Word64) :
    foldPrefix (j + 1) x = foldStep (foldPrefix j x) sh := by
  simp [foldPrefix, List.take_add_one, h]

theorem foldShifts_getElem? : ∀ j < 6, Config.foldShifts[j]? = some (2 ^ (5 - j)) := by
  decide

/-- The invariant of R57: after `j` folds the low `2 ^ (6 - j)` bits have the operand's parity. -/
theorem par_foldPrefix (x : Word64) {j : Nat} (hj : j ≤ 6) :
    par ((foldPrefix j x).extractLsb' 0 (2 ^ (6 - j))) = par x := by
  induction j with
  | zero => exact congrArg par BitVec.extractLsb'_eq_self
  | succ j ih =>
    have hwidth : 2 ^ (6 - j) = 2 ^ (5 - j) + 2 ^ (5 - j) := by
      rw [show 6 - j = 5 - j + 1 by omega, Nat.pow_succ, Nat.mul_two]
    rw [foldPrefix_succ (foldShifts_getElem? j hj), show 6 - (j + 1) = 5 - j by omega,
      par_foldStep, ← hwidth, ih (by omega)]

theorem foldPrefix_six_bit0 (x : Word64) : (foldPrefix 6 x).extractLsb' 0 1 = par x :=
  (par_bit _).symm.trans (par_foldPrefix x le_rfl)

theorem foldParity_eq_par (x : Word64) : foldParity x = par x := by
  rw [← foldPrefix_six_bit0, foldParity]
  ext i hi
  obtain rfl : i = 0 := by omega
  simp [foldPrefix, Config.foldShifts]

theorem exec_parityXorfold_eq_par (x : Word64) (s : State) :
    exec (.parityXorfold x) s = .next (s.complete (parityByte (par x))) := by
  rw [exec_parityXorfold, foldParity_eq_par]

/-- Settles O12: fold `j` has shift `2 ^ (5 - j)`, so R57's invariant is `par_foldPrefix`. -/
theorem foldInvariantGivesParity : Obligations.FoldInvariantGivesParity := by
  unfold Obligations.FoldInvariantGivesParity
  refine fun x => ⟨fun j sh hsh => ?_, foldPrefix_six_bit0 x, exec_parityXorfold_eq_par x⟩
  obtain ⟨hj, -⟩ := List.getElem?_eq_some_iff.mp hsh
  obtain rfl : 2 ^ (5 - j) = sh := Option.some.inj ((foldShifts_getElem? j hj).symm.trans hsh)
  refine ⟨?_, by rw [foldPrefix_succ hsh, foldStep_extractLsb']⟩
  rw [show 5 - j = 6 - (j + 1) by omega]
  exact par_foldPrefix x hj

/-! ### `PARITY.CACHED` -/

/-- The subwords of R54 are slices of the operand (R55). -/
theorem subword_eq_extractLsb' (x : Word64) (k : Nat) : subword x k = x.extractLsb' (16 * k) 16 := by
  have hmask : ∀ i < 16, (0xFFFF#64).getLsbD i = true := by decide
  ext i hi
  have hwide : i < 64 := by omega
  simp [subword, hmask i hi, hwide]

theorem State.cachedParity_eq_slices (s : State) (x : Word64) :
    s.cachedParity x =
      s.memRead (x.extractLsb' 0 16) ^^^ s.memRead (x.extractLsb' 16 16) ^^^
        s.memRead (x.extractLsb' 32 16) ^^^ s.memRead (x.extractLsb' 48 16) := by
  simp only [State.cachedParity, subword_eq_extractLsb']

/-- Settles O13: the table's addresses are the four slices, and its entries stay opaque. -/
theorem parityCachedReadsFourEntries : Obligations.ParityCachedReadsFourEntries := by
  unfold Obligations.ParityCachedReadsFourEntries
  intro x s hready
  rw [exec_parityCached_of_ready x s hready, State.cachedParity_eq_slices]

/-- The parity of a 64-bit value is the XOR of the parities of its four 16-bit slices. -/
theorem par_eq_xor_slices (x : Word64) :
    par x = par (x.extractLsb' 0 16) ^^^ par (x.extractLsb' 16 16) ^^^
      par (x.extractLsb' 32 16) ^^^ par (x.extractLsb' 48 16) :=
  calc
    par x = par (x.extractLsb' 0 (16 + 16 + 16 + 16)) := by rw [BitVec.extractLsb'_eq_self]
    _ = _ := by rw [par_extractLsb'_add, par_extractLsb'_add, par_extractLsb'_add]

theorem TableInv.cachedParity_eq_par {s : State} (h : TableInv s) (hr : s.lutReady = 1#1)
    (x : Word64) : s.cachedParity x = par x := by
  simp only [State.cachedParity_eq_slices, h.memRead hr, ← par_eq_xor_slices]

theorem TableInv.exec_parityCached {s : State} (h : TableInv s) (hr : s.lutReady = 1#1)
    (x : Word64) : exec (.parityCached x) s = .next (s.complete (parityByte (par x))) := by
  rw [exec_parityCached_of_ready x s hr, h.cachedParity_eq_par hr]

/-- Settles O14: each entry read is the parity of its slice, and slices' parities XOR to the
operand's. -/
theorem parityCachedWritesParity : Obligations.ParityCachedWritesParity := by
  unfold Obligations.ParityCachedWritesParity
  exact fun x => ⟨fun k _ => subword_eq_extractLsb' x k,
    fun s hs hready => hs.exec_parityCached hready x⟩

/-! ### The three commands together -/

/-- Every parity command, `PARITY.CACHED` with a ready table, completes with the parity of its
operand (R58). -/
theorem exec_eq_par {i : Instr} {s : State} (hop : i.op ≠ .countbits)
    (hcached : i.op = .parityCached → TableInv s ∧ s.lutReady = 1#1) :
    exec i s = .next (s.complete (parityByte (par i.operand))) := by
  cases i with
  | countbits x => exact absurd rfl hop
  | parity x => exact exec_parity_eq_par x s
  | parityXorfold x => exact exec_parityXorfold_eq_par x s
  | parityCached x =>
    obtain ⟨hs, hready⟩ := hcached rfl
    exact hs.exec_parityCached hready x

/-- Settles O18: each command completes with `parityByte (par x)`. -/
theorem threeParityCommandsAgree : Obligations.ThreeParityCommandsAgree := by
  unfold Obligations.ThreeParityCommandsAgree
  refine fun x s => ⟨exec_parity_eq_par x s, ?_, fun hs hready => ?_⟩
  · rw [exec_parityXorfold_eq_par, exec_parity_eq_par]
  · rw [hs.exec_parityCached hready, exec_parity_eq_par]

/-! ### Parity and the population count -/

theorem popcount_eq_low_add_high (x : Word64) :
    popcount x = popcount (x.extractLsb' 0 32) + popcount (x.extractLsb' 32 32) := by
  have hsplit := popcount_extractLsb'_add x 0 32 32
  rwa [BitVec.extractLsb'_eq_self] at hsplit

theorem parityByte_par_toNat {n : Nat} (v : BitVec n) :
    (parityByte (par v)).toNat = popcount v % 2 := by
  simp only [parityByte, par, BitVec.toNat_setWidth, BitVec.toNat_ofNat]
  omega

theorem popcount_of_bits_eq {n : Nat} {v : BitVec n} (b : Bool)
    (h : ∀ i < n, v.getLsbD i = b) : popcount v = n * b.toNat := by
  have hsum : ∀ i : Fin n, (v.getLsbD i).toNat = b.toNat := fun i => by rw [h i i.isLt]
  simp only [popcount_eq_sum_bits, hsum, Finset.sum_const, Finset.card_fin, smul_eq_mul]

/-- The bits above a zero- or sign-extended 32-bit pattern are all alike, so an even number of them is
1 (R59). -/
theorem popcount_high_of_extended {x : Word64} {v : Word32}
    (h : x = v.setWidth 64 ∨ x = v.signExtend 64) : popcount (x.extractLsb' 32 32) % 2 = 0 := by
  have hbits : ∃ b, ∀ i < 32, (x.extractLsb' 32 32).getLsbD i = b := by
    rcases h with rfl | rfl
    · exact ⟨false, fun i _ => by simp⟩
    · refine ⟨v.msb, fun i hi => ?_⟩
      have hwide : 32 + i < 64 := by omega
      simp [BitVec.getElem_signExtend, hi, hwide]
  obtain ⟨b, hb⟩ := hbits
  rw [popcount_of_bits_eq b hb]
  omega

/-- The result of `COUNTBITS` is the count of the low half itself: 32 fits in a byte. -/
theorem countbits_result_toNat (x : Word64) :
    (BitVec.ofNat 8 (popcount (countOperand x))).toNat = popcount (x.extractLsb' 0 32) := by
  have hle := popcount_le_width (countOperand x)
  rw [BitVec.toNat_ofNat, Nat.mod_eq_of_lt (by omega), countOperand]

/-- Settles O19: the operand's population count is that of its two halves, and `COUNTBITS` gives the
low half's. -/
theorem parityIsPopulationCountMod2 : Obligations.ParityIsPopulationCountMod2 := by
  unfold Obligations.ParityIsPopulationCountMod2
  intro x s i hi hcached
  have hi' : i.op ≠ .countbits ∧ i.operand = x := by
    simp only [List.mem_cons, List.not_mem_nil, or_false] at hi
    rcases hi with rfl | rfl | rfl <;> simp [Instr.op, Instr.operand]
  obtain ⟨hop, hoperand⟩ := hi'
  refine ⟨_, _, exec_countbits_eq_popcount x s, exec_eq_par hop hcached, ?_⟩
  rw [State.complete_result, State.complete_result, countbits_result_toNat, parityByte_par_toNat,
    hoperand, popcount_eq_low_add_high x]
  refine ⟨rfl, by omega, fun v hv => ?_⟩
  have heven := popcount_high_of_extended hv
  omega

/-! ### Permuted and rotated operands -/

theorem par_congr {m n : Nat} {v : BitVec m} {w : BitVec n} (h : popcount v = popcount w) :
    par v = par w := by
  rw [par, par, h]

/-- Permuting the bits permutes the summands of the population count. -/
theorem popcount_of_permuted {n : Nat} {x y : BitVec n} (σ : Equiv.Perm (Fin n))
    (h : ∀ i : Fin n, y.getLsbD i = x.getLsbD (σ i)) : popcount y = popcount x := by
  simp only [popcount_eq_sum_bits, h]
  exact Equiv.sum_comp σ fun i => (x.getLsbD i).toNat

/-- A rotation by `k` takes bit `i` from bit `i - k` mod 64. -/
theorem getLsbD_rotateLeft_eq_sub (x : Word64) (k : Nat) (i : Fin 64) :
    (x.rotateLeft k).getLsbD i = x.getLsbD (Equiv.subRight (Fin.ofNat 64 k) i) := by
  have hi := i.isLt
  rw [BitVec.getLsbD_rotateLeft, Equiv.subRight_apply, Fin.val_sub, Fin.val_ofNat]
  by_cases hwrap : (i : Nat) < k % 64
  · have hindex : (64 - k % 64 + i) % 64 = 64 - k % 64 + i := by omega
    simp [hwrap, hindex]
  · have hindex : (64 - k % 64 + i) % 64 = i - k % 64 := by omega
    simp [hwrap, hindex]

theorem popcount_rotateLeft (x : Word64) (k : Nat) : popcount (x.rotateLeft k) = popcount x :=
  popcount_of_permuted _ (getLsbD_rotateLeft_eq_sub x k)

/-- Settles O20: the commands read their operand through its parity alone, a held one not at all. -/
theorem parityDependsOnlyOnPopcount : Obligations.ParityDependsOnlyOnPopcount := by
  unfold Obligations.ParityDependsOnlyOnPopcount
  refine ⟨fun x y s hcount => ?_, fun x y => popcount_of_permuted, popcount_rotateLeft⟩
  have hpar : par y = par x := par_congr hcount
  refine ⟨?_, ?_, fun hs => ?_⟩
  · rw [exec_parity_eq_par, exec_parity_eq_par, hpar]
  · rw [exec_parityXorfold_eq_par, exec_parityXorfold_eq_par, hpar]
  by_cases hready : s.lutReady = 1#1
  · rw [hs.exec_parityCached hready, hs.exec_parityCached hready, hpar]
  · rw [exec_parityCached_of_not_ready y s hready, exec_parityCached_of_not_ready x s hready]

/-- Settles O21: a parity command that is not held completes with a one-bit value, whatever the table
holds. -/
theorem parityResultIsZeroOrOne : Obligations.ParityResultIsZeroOrOne := by
  unfold Obligations.ParityResultIsZeroOrOne
  intro i s hop hheld
  have hvalue := s.commandValue_eq_zero_or_one hop
  refine ⟨_, exec_of_not_held hheld, ?_⟩
  rw [State.complete_result]
  refine ⟨hvalue, ?_⟩
  rcases hvalue with h | h <;> rw [h] <;> decide

end Sys2Proof.Machine

/-!
PROOFS. The statements of 60_exceptions.md: no step faults, a held command waits and holds those behind
it, and every command completes with the value the rules give it.
-/

namespace Sys2Proof.Machine

/-! ### No exceptions -/

/-- Settles O6: whichever agent moves, `step_cases` names the next state. -/
theorem everyStepAnswersNext : Obligations.EveryStepAnswersNext := by
  unfold Obligations.EveryStepAnswersNext
  intro s
  rcases step_cases s with ⟨_, _, he⟩ | ⟨_, _, he⟩ | ⟨_, _, _, he⟩ | ⟨_, _, he⟩ | ⟨_, _, _, _, he⟩ |
    ⟨_, _, _, _, _, _, he⟩ | ⟨_, he⟩ | ⟨_, he⟩ <;> exact ⟨_, he⟩

/-! ### The held command -/

theorem State.holds_of_ready {s : State} (hr : s.lutReady = 1#1) (i : Instr) :
    s.holds i = false := by
  cases i with
  | parityCached x => simp [State.holds, hr]
  | countbits x => rfl
  | parity x => rfl
  | parityXorfold x => rfl

theorem State.headHeld_of_cons {s : State} {c : Pending} {rest : List Pending}
    (hp : s.pending = c :: rest) : s.headHeld = s.holds (decode c.word) := by
  simp [State.headHeld, State.fetch_of_cons hp]

theorem State.headHeld_of_ready {s : State} (hr : s.lutReady = 1#1) : s.headHeld = false := by
  cases hp : s.pending with
  | nil => simp [State.headHeld, State.fetch_of_nil hp]
  | cons c rest => rw [State.headHeld_of_cons hp, State.holds_of_ready hr]

/-- Settles O15: a ROM is ready, so nothing is held. -/
theorem romHoldsNoCommand : Obligations.RomHoldsNoCommand := by
  unfold Obligations.RomHoldsNoCommand
  intro s h hrom
  have hready : s.lutReady = 1#1 := h.ready_iff.mpr (h.rom_ready hrom)
  exact ⟨State.headHeld_of_ready hready, h.exec_parityCached hready⟩

theorem lutReady_ne_one_of_zero {s : State} (h0 : s.lutReady = 0#1) : s.lutReady ≠ 1#1 := by
  rw [h0]
  decide

/-- Settles O16: `LUT_READY` is not 1. -/
theorem parityCachedWaitsForTable : Obligations.ParityCachedWaitsForTable := by
  unfold Obligations.ParityCachedWaitsForTable
  exact fun x s h0 => exec_parityCached_of_not_ready x s (lutReady_ne_one_of_zero h0)

/-! ### The hosts' positions -/

/-- Replacing a record by one that agrees on `f` leaves `f` of every host. -/
theorem map_set_of_getElem? {α β : Type} {l : List α} {i : Nat} {a b : α} (f : α → β)
    (ha : l[i]? = some a) (hf : f b = f a) : (l.set i b).map f = l.map f := by
  obtain ⟨hi, rfl⟩ := List.getElem?_eq_some_iff.mp ha
  rw [List.map_set, hf, ← List.getElem_map f (h := by simpa using hi), List.set_getElem_self]

theorem State.hostIssue_cpos (s : State) (h : Nat) :
    (s.hostIssue h).hosts.map HostPort.cpos = s.hosts.map HostPort.cpos := by
  rcases s.hostIssue_cases h with he | ⟨p, w, hp, _, he⟩ <;> rw [he]
  exact map_set_of_getElem? HostPort.cpos hp rfl

theorem State.hostReissue_cpos (s : State) (h : Nat) :
    (s.hostReissue h).hosts.map HostPort.cpos = s.hosts.map HostPort.cpos := by
  rcases s.hostReissue_cases h with he | ⟨p, w, rest, hp, _, he⟩ <;> rw [he]
  exact map_set_of_getElem? HostPort.cpos hp rfl

theorem State.hostRead_cpos (s : State) (h : Nat) (r : HostReg) :
    (s.hostRead h r).hosts.map HostPort.cpos = s.hosts.map HostPort.cpos := by
  cases hp : s.hosts[h]? with
  | none => rw [State.hostRead_of_none r hp]
  | some p =>
    rw [State.hostRead_of_some r hp]
    exact map_set_of_getElem? HostPort.cpos hp rfl

theorem State.applyReset_cpos (s : State) :
    s.applyReset.hosts.map HostPort.cpos = s.hosts.map HostPort.cpos := by
  rw [State.applyReset_hosts]
  exact List.ext_getElem (by simp) (by simp)

/-- R15: `cpos` of a host moves only in a step that performs a command that is not held. -/
theorem step_keeps_cpos_or_performs {s t : State} (hs : step s = .next t) :
    t.hosts.map HostPort.cpos = s.hosts.map HostPort.cpos ∨
      ∃ i, s.fetch = some i ∧ s.holds i = false := by
  rcases step_cases s with ⟨h, _, he⟩ | ⟨h, _, he⟩ | ⟨h, r, _, he⟩ | ⟨_, _, he⟩ | ⟨_, _, _, _, he⟩ |
    ⟨i, _, _, hf, hh, _⟩ | ⟨_, he⟩ | ⟨_, he⟩
  case inr.inr.inr.inr.inr.inl => exact .inr ⟨i, hf, hh⟩
  all_goals
    cases he.symm.trans hs
    left
  · exact s.popMove.hostIssue_cpos h
  · exact s.popMove.hostReissue_cpos h
  · exact s.popMove.hostRead_cpos h r
  · rfl
  · rfl
  · rw [State.buildStep_hosts, State.popMove_hosts]
  · exact s.popMove.applyReset_cpos

/-- Settles O17: every way in which a step completes a command performs the oldest one, which is
held. -/
theorem heldCommandStaysAndHoldsOthers : Obligations.HeldCommandStaysAndHoldsOthers := by
  unfold Obligations.HeldCommandStaysAndHoldsOthers
  intro s t c rest x hp hc h0 hr hs
  have hheld : s.holds (decode c.word) = true := by
    rw [hc]
    exact decide_eq_true (lutReady_ne_one_of_zero h0)
  have hperformed {i : Instr} (hf : s.fetch = some i) : s.holds i ≠ false := by
    cases (State.fetch_of_cons hp).symm.trans hf
    simp [hheld]
  obtain ⟨hres, hval, hresp⟩ := (step_keeps_result_or_completes hr hs).resolve_right
    fun ⟨d, _, hp', hh, _⟩ => hperformed (State.fetch_of_cons hp') hh
  have hcpos := (step_keeps_cpos_or_performs hs).resolve_right fun ⟨_, hf, hh⟩ => hperformed hf hh
  refine ⟨?_, hresp, hres, hval, hcpos⟩
  rcases commandsCompleteInIssueOrder s t hr hs with ⟨_, _, _, new, _, hpend⟩ | ⟨d, _, _, _, hnew, _⟩
  · exact ⟨new, hp ▸ hpend⟩
  · simp [hresp] at hnew

/-! ### The responses the rules give -/

/-- The value of a command that is not held is the rules' (R50, R58). -/
theorem TableInv.commandValue_eq_ruleValue {s : State} (h : TableInv s) {i : Instr}
    (hheld : s.holds i = false) : s.commandValue i = ruleValue i := by
  cases i with
  | countbits x => simp only [State.commandValue, ruleValue, countBits_eq_popcount]
  | parity x => simp only [State.commandValue, ruleValue, serialParity_eq_par]
  | parityXorfold x => simp only [State.commandValue, ruleValue, foldParity_eq_par]
  | parityCached x =>
    have hready : s.lutReady = 1#1 := by simpa [State.holds] using hheld
    simp only [State.commandValue, ruleValue, h.cachedParity_eq_par hready]

/-- The responses returned and those the rules give the commands still to complete: the ones pending
and the ones issued over the rest of the schedule. -/
def State.ruleResponses (s : State) : List Response :=
  s.responses ++ (s.pending ++ s.issuedLater).map Pending.ruleResponse

/-- What the rules have answered depends only on the responses and on what is left to perform. -/
theorem State.ruleResponses_congr {s t : State} (hr : t.responses = s.responses)
    (hp : t.pending ++ t.issuedLater = s.pending ++ s.issuedLater) :
    t.ruleResponses = s.ruleResponses := by
  rw [State.ruleResponses, hr, hp, State.ruleResponses]

theorem State.issuedLater_of_nil {s : State} (h : s.schedule = []) : s.issuedLater = [] := by
  rw [State.issuedLater, h, issueOrder]

theorem State.defaultMove_eq_build_or_engine (s : State) :
    s.defaultMove = .build ∨ s.defaultMove = .engine := by
  rw [State.defaultMove]
  split
  · exact .inl rfl
  · exact .inr rfl

/-- A move that neither the build nor the engine takes was scheduled. -/
theorem State.schedule_of_nextMove {s : State} {m : Move} (hm : s.nextMove = m) (hb : m ≠ .build)
    (he : m ≠ .engine) : s.schedule = m :: s.popMove.schedule := by
  subst hm
  cases hsched : s.schedule with
  | nil =>
    have hdefault : s.nextMove = s.defaultMove := by rw [State.nextMove, hsched]
    rcases s.defaultMove_eq_build_or_engine with h | h
    · exact absurd (hdefault.trans h) hb
    · exact absurd (hdefault.trans h) he
  | cons m ms => simp [State.nextMove, hsched]

theorem State.nextMove_ne_reset {s : State} (h : .reset ∉ s.schedule) : s.nextMove ≠ .reset := by
  intro hm
  rw [State.schedule_of_nextMove hm (by decide) (by decide)] at h
  exact h List.mem_cons_self

/-- Only the hosts' moves issue commands. -/
theorem State.popMove_issuedLater {s : State} (hi : ∀ h, s.nextMove ≠ .issue h)
    (hri : ∀ h, s.nextMove ≠ .reissue h) : s.popMove.issuedLater = s.issuedLater := by
  rw [State.issuedLater, State.issuedLater, State.popMove_schedule, State.popMove_hosts]
  cases hsched : s.schedule with
  | nil => rfl
  | cons m ms =>
    have hm : s.nextMove = m := by rw [State.nextMove, hsched]
    cases m with
    | issue h => exact absurd hm (hi h)
    | reissue h => exact absurd hm (hri h)
    | read h r => rfl
    | engine => rfl
    | build => rfl
    | reset => rfl

theorem State.hostIssue_ruleResponses {s : State} {h : Nat} (hm : s.nextMove = .issue h) :
    (s.popMove.hostIssue h).ruleResponses = s.ruleResponses := by
  refine State.ruleResponses_congr (by simp) ?_
  have horder := s.popMove.hostIssue_issueOrder h s.popMove.schedule
  rwa [← State.schedule_of_nextMove hm nofun nofun, ← s.popMove.hostIssue_schedule h] at horder

theorem State.hostReissue_ruleResponses {s : State} {h : Nat} (hm : s.nextMove = .reissue h) :
    (s.popMove.hostReissue h).ruleResponses = s.ruleResponses := by
  refine State.ruleResponses_congr (by simp) ?_
  have horder := s.popMove.hostReissue_issueOrder h s.popMove.schedule
  rwa [← State.schedule_of_nextMove hm nofun nofun, ← s.popMove.hostReissue_schedule h] at horder

theorem State.hostRead_ruleResponses (s : State) (h : Nat) (r : HostReg) :
    (s.hostRead h r).ruleResponses = s.ruleResponses :=
  State.ruleResponses_congr rfl (by simp [State.issuedLater])

@[simp] theorem State.buildStep_schedule (s : State) : s.buildStep.schedule = s.schedule := by
  rcases s.buildStep_cases with ⟨_, h⟩ | ⟨_, h⟩ <;> simp [h]

theorem State.buildStep_ruleResponses (s : State) :
    s.buildStep.ruleResponses = s.ruleResponses :=
  State.ruleResponses_congr (by simp) (by simp [State.issuedLater])

/-- A completion moves the oldest pending command's response from those to come to those returned. -/
theorem TableInv.complete_ruleResponses {s : State} (h : TableInv s) {c : Pending}
    {rest : List Pending} (hp : s.pending = c :: rest)
    (hheld : s.holds (decode c.word) = false) :
    (s.complete (s.commandValue (decode c.word))).ruleResponses = s.ruleResponses := by
  have hvalue : (⟨c.host, s.commandValue (decode c.word)⟩ : Response) = c.ruleResponse := by
    rw [h.commandValue_eq_ruleValue hheld, Pending.ruleResponse]
  have hlater : (s.complete (s.commandValue (decode c.word))).issuedLater = s.issuedLater := by
    simp [State.issuedLater]
  rw [State.ruleResponses, State.ruleResponses, State.complete_responses_of_cons s _ c rest hp,
    hvalue, hlater]
  simp [hp]

/-- But for reset, every step keeps what the rules answer in all: the engine performs only what was to
be performed, with the rules' value, and the hosts queue only what they were to issue. -/
theorem step_keeps_ruleResponses {s t : State} (h : TableInv s) (hr : s.nextMove ≠ .reset)
    (hs : step s = .next t) : t.ruleResponses = s.ruleResponses := by
  have hpop (hi : ∀ k, s.nextMove ≠ .issue k) (hri : ∀ k, s.nextMove ≠ .reissue k) :
      s.popMove.ruleResponses = s.ruleResponses :=
    State.ruleResponses_congr rfl (congrArg _ (State.popMove_issuedLater hi hri))
  rcases step_cases s with ⟨k, hm, he⟩ | ⟨k, hm, he⟩ | ⟨k, r, hm, he⟩ | ⟨hm, _, he⟩ |
    ⟨_, hm, _, _, he⟩ | ⟨i, v, hm, hf, hh, hx, he⟩ | ⟨hm, he⟩ | ⟨hm, _⟩
  case inr.inr.inr.inr.inr.inr.inr => exact absurd hm hr
  all_goals cases he.symm.trans hs
  · exact State.hostIssue_ruleResponses hm
  · exact State.hostReissue_ruleResponses hm
  · exact (s.popMove.hostRead_ruleResponses k r).trans (hpop (by simp [hm]) (by simp [hm]))
  · exact hpop (by simp [hm]) (by simp [hm])
  · exact hpop (by simp [hm]) (by simp [hm])
  · obtain ⟨c, rest, hp, rfl⟩ := State.fetch_eq_some hf
    have hh' : s.popMove.holds (decode c.word) = false := (s.popMove_holds _).trans hh
    have hstate := Host.Outcome.next.inj (hx.symm.trans (exec_of_not_held hh'))
    rw [hstate]
    exact ((s.popMove_sameTable.tableInv h).complete_ruleResponses hp hh').trans
      (hpop (by simp [hm]) (by simp [hm]))
  · exact s.popMove.buildStep_ruleResponses.trans (hpop (by simp [hm]) (by simp [hm]))

/-! ### The work left -/

theorem step_schedule {s t : State} (hs : step s = .next t) : t.schedule = s.schedule.tail := by
  rcases step_cases s with ⟨_, _, he⟩ | ⟨_, _, he⟩ | ⟨_, _, _, he⟩ | ⟨_, _, he⟩ | ⟨_, _, _, _, he⟩ |
    ⟨_, _, _, _, _, _, he⟩ | ⟨_, he⟩ | ⟨_, he⟩ <;> cases he.symm.trans hs <;> simp

/-- A bound on the steps until nothing is left: a scheduled move, which may issue a command, counts
for two, a pending command and a build step each for one. -/
def State.workLeft (s : State) : Nat :=
  2 * s.schedule.length + s.pending.length + (65536 - s.buildIdx.toNat)

theorem State.buildStep_buildIdx {s : State} (h : s.buildEnabled = true) :
    s.buildStep.buildIdx.toNat = s.buildIdx.toNat + 1 := by
  have hlt := (s.buildEnabled_iff.mp h).2
  rw [s.buildStep_of_enabled h, State.buildAdvance_buildIdx, State.memWrite_buildIdx,
    BitVec.toNat_add, BitVec.toNat_ofNat]
  omega

theorem State.buildStep_buildIdx_le (s : State) :
    s.buildIdx.toNat ≤ s.buildStep.buildIdx.toNat := by
  cases h : s.buildEnabled with
  | false => rw [s.buildStep_of_not_enabled h]
  | true => exact (State.buildStep_buildIdx h).symm ▸ Nat.le_succ _

theorem step_buildIdx_le {s t : State} (hr : s.nextMove ≠ .reset) (hs : step s = .next t) :
    s.buildIdx.toNat ≤ t.buildIdx.toNat := by
  by_cases hb : s.nextMove = .build
  · cases (step_of_build hb).symm.trans hs
    exact s.popMove.buildStep_buildIdx_le
  · rw [(step_sameTable hb hr hs).buildIdx]

theorem step_pending_length_le {s t : State} (hr : s.nextMove ≠ .reset) (hs : step s = .next t) :
    t.pending.length ≤ s.pending.length + 1 := by
  rcases commandsCompleteInIssueOrder s t hr hs with ⟨_, _, _, new, hle, hp⟩ | ⟨c, rest, hp, hp', _⟩
  · rw [hp, List.length_append]
    omega
  · rw [hp, hp', List.length_cons]
    omega

theorem State.nextMove_of_nil {s : State} (hsched : s.schedule = []) :
    s.nextMove = s.defaultMove := by
  rw [State.nextMove, hsched]

/-- With the table's invariant the build goes on while the oldest command is held. -/
theorem TableInv.buildEnabled_of_headHeld {s : State} (h : TableInv s) (hh : s.headHeld = true) :
    s.buildEnabled = true :=
  h.buildEnabled_of_not_ready fun hr => by simp [State.headHeld_of_ready hr] at hh

theorem TableInv.buildIdx_of_not_enabled {s : State} (h : TableInv s)
    (hb : s.buildEnabled = false) : s.buildIdx.toNat = 65536 := by
  by_contra hne
  have hready : s.lutReady ≠ 1#1 := fun hr => hne (h.ready_iff.mp hr)
  simp [h.buildEnabled_of_not_ready hready] at hb

/-- What moves when nothing is scheduled (notes/assumptions/6.md): the build, where it is enabled; or
the engine, with a command that is not held; or there is nothing left to do. -/
theorem TableInv.defaultMove_cases {s : State} (h : TableInv s) :
    (s.defaultMove = .build ∧ s.buildEnabled = true) ∨
    (∃ c rest, s.defaultMove = .engine ∧ s.pending = c :: rest ∧
      s.holds (decode c.word) = false) ∨
    (s.defaultMove = .engine ∧ s.pending = [] ∧ s.buildIdx.toNat = 65536) := by
  cases hp : s.pending with
  | nil =>
    cases hb : s.buildEnabled with
    | true => exact .inl ⟨by simp [State.defaultMove, hb, hp], rfl⟩
    | false =>
      exact .inr (.inr ⟨by simp [State.defaultMove, hb], rfl, h.buildIdx_of_not_enabled hb⟩)
  | cons c rest =>
    cases hh : s.headHeld with
    | true =>
      have hb := h.buildEnabled_of_headHeld hh
      exact .inl ⟨by simp [State.defaultMove, hb, hh], hb⟩
    | false =>
      exact .inr (.inl ⟨c, rest, by simp [State.defaultMove, hh, hp], rfl,
        (State.headHeld_of_cons hp).symm.trans hh⟩)

/-- With nothing scheduled a step builds an entry or completes a command, where one is left. -/
theorem step_workLeft_le_of_nil {s t : State} (h : TableInv s) (hsched : s.schedule = [])
    (hs : step s = .next t) : t.workLeft ≤ s.workLeft - 1 := by
  have htail := step_schedule hs
  rcases h.defaultMove_cases with ⟨hm, hb⟩ | ⟨c, rest, hm, hp, hh⟩ | ⟨hm, hp, hidx⟩ <;>
    rw [← State.nextMove_of_nil hsched] at hm
  · cases (step_of_build hm).symm.trans hs
    have hstep : s.popMove.buildStep.buildIdx.toNat = s.buildIdx.toNat + 1 :=
      State.buildStep_buildIdx (s := s.popMove) hb
    have hlt := (s.buildEnabled_iff.mp hb).2
    simp only [State.workLeft, hstep, htail, State.buildStep_pending, State.popMove_pending, hsched,
      List.tail_nil, List.length_nil]
    omega
  · have hexec := (stepPerformsDecodedCommand s hm).1 c rest hp
    have hh' : s.popMove.holds (decode c.word) = false := (s.popMove_holds _).trans hh
    cases (hexec.trans (exec_of_not_held hh')).symm.trans hs
    simp [State.workLeft, hsched, hp]
  · cases ((stepPerformsDecodedCommand s hm).2 hp).symm.trans hs
    simp [State.workLeft, hsched, hp, hidx]

/-- But for reset, a step takes one from the work left, where any is left. -/
theorem step_workLeft_le {s t : State} (h : TableInv s) (hr : .reset ∉ s.schedule)
    (hs : step s = .next t) : t.workLeft ≤ s.workLeft - 1 := by
  cases hsched : s.schedule with
  | nil => exact step_workLeft_le_of_nil h hsched hs
  | cons m ms =>
    have hidx := step_buildIdx_le (State.nextMove_ne_reset hr) hs
    have hpend := step_pending_length_le (State.nextMove_ne_reset hr) hs
    rw [State.workLeft, State.workLeft, step_schedule hs, hsched, List.tail_cons, List.length_cons]
    omega

theorem TableInv.done_of_workLeft_eq_zero {s : State} (h : TableInv s) (hw : s.workLeft = 0) :
    s.schedule = [] ∧ s.pending = [] ∧ s.lutReady = 1#1 := by
  have hle := h.buildIdx_le
  simp only [State.workLeft] at hw
  refine ⟨List.length_eq_zero_iff.mp (by omega), List.length_eq_zero_iff.mp (by omega),
    h.ready_iff.mpr ?_⟩
  rw [Config.lutEntries] at hle ⊢
  omega

/-! ### Every command completes -/

/-- As many steps as work is left end with none left, with the invariant and the rules' responses
kept along. -/
theorem run_completes_work {n : Nat} {s : State} (h : TableInv s) (hr : .reset ∉ s.schedule)
    (hn : s.workLeft ≤ n) :
    ∃ t, run n s = .next t ∧ TableInv t ∧ t.workLeft = 0 ∧ t.ruleResponses = s.ruleResponses := by
  induction n generalizing s with
  | zero => exact ⟨s, rfl, h, Nat.le_zero.mp hn, rfl⟩
  | succ n ih =>
    obtain ⟨u, hu⟩ := everyStepAnswersNext s
    have hr' : .reset ∉ u.schedule := by
      rw [step_schedule hu]
      exact fun hmem => hr (List.mem_of_mem_tail hmem)
    have hwork := step_workLeft_le h hr hu
    obtain ⟨t, hrun, ht, hdone, hresp⟩ := ih (stepKeepsTableInv s u h hu) hr' (by omega)
    exact ⟨t, (run_succ_of_next n hu).trans hrun, ht, hdone,
      hresp.trans (step_keeps_ruleResponses h (State.nextMove_ne_reset hr) hu)⟩

/-- As many steps as work is left use up the schedule, complete every command and publish the table. -/
theorem run_workLeft_answers {s : State} (h : TableInv s) (hr : .reset ∉ s.schedule) :
    ∃ t, run s.workLeft s = .next t ∧ t.schedule = [] ∧ t.pending = [] ∧ t.lutReady = 1#1 ∧
      t.responses = s.ruleResponses := by
  obtain ⟨t, hrun, ht, hdone, hresp⟩ := run_completes_work h hr le_rfl
  obtain ⟨hsched, hpend, hready⟩ := ht.done_of_workLeft_eq_zero hdone
  refine ⟨t, hrun, hsched, hpend, hready, ?_⟩
  rw [← hresp, State.ruleResponses, hpend, State.issuedLater_of_nil hsched]
  exact (List.append_nil _).symm

/-- Settles O51: the bound is the work left. -/
theorem pendingCompleteBehindAnySchedule : Obligations.PendingCompleteBehindAnySchedule := by
  unfold Obligations.PendingCompleteBehindAnySchedule
  intro s h hr
  obtain ⟨t, ht⟩ := run_workLeft_answers h hr
  exact ⟨s.workLeft, t, le_rfl, ht⟩

/-- Settles O46: with nothing scheduled, the work left is the pending commands and the build, and no
command is issued later. -/
theorem everyPendingCommandCompletes : Obligations.EveryPendingCommandCompletes := by
  unfold Obligations.EveryPendingCommandCompletes
  intro s h hsched
  have hwork : s.workLeft = s.pending.length + (65536 - s.buildIdx.toNat) := by
    simp [State.workLeft, hsched]
  obtain ⟨t, hrun, _, hpend, hready, hresp⟩ := run_workLeft_answers h (by simp [hsched])
  refine ⟨t, hwork ▸ hrun, hpend, hready, ?_⟩
  rw [hresp, State.ruleResponses, State.issuedLater_of_nil hsched, List.append_nil]

end Sys2Proof.Machine

/-!
PROOFS. The statements of 70_reset_and_hazards.md: the passes of the loops, the table build, the
commands that do not read the table, what reset sets and discards, and the end of a program.
-/

namespace Sys2Proof.Machine

/-! ### How many shifts empty a value -/

/-- The index of the highest 1-bit plus 1, and 0 for a zero value (R85). -/
def bitLength {w : Nat} (x : BitVec w) : Nat := if x = 0#w then 0 else Nat.log2 x.toNat + 1

@[simp] theorem bitLength_zero (w : Nat) : bitLength 0#w = 0 := if_pos rfl

theorem bitLength_le_iff {w : Nat} (x : BitVec w) (j : Nat) :
    bitLength x ≤ j ↔ x.toNat < 2 ^ j := by
  by_cases hx : x = 0#w
  · simp [hx]
  · have hne : x.toNat ≠ 0 := fun h => hx (BitVec.eq_of_toNat_eq h)
    rw [bitLength, if_neg hx, Nat.add_one_le_iff, Nat.log2_lt hne]

theorem shiftRight_eq_zero_iff {w : Nat} (x : BitVec w) (j : Nat) :
    x >>> j = 0#w ↔ bitLength x ≤ j := by
  rw [bitLength_le_iff, ← BitVec.toNat_inj, BitVec.toNat_ushiftRight, BitVec.toNat_ofNat,
    Nat.zero_mod, Nat.shiftRight_eq_div_pow, Nat.div_eq_zero_iff_lt (Nat.two_pow_pos j)]

theorem shiftRight_bitLength {w : Nat} (x : BitVec w) : x >>> bitLength x = 0#w :=
  (shiftRight_eq_zero_iff x _).mpr le_rfl

/-- A shift by one takes one off the number of shifts that empty a value. -/
theorem bitLength_shiftRight_one {w : Nat} {x : BitVec w} (hx : x ≠ 0#w) :
    bitLength (x >>> (1 : Nat)) + 1 = bitLength x := by
  refine eq_of_forall_ge_iff fun j => ?_
  cases j with
  | zero => simp [bitLength, hx]
  | succ j =>
    rw [Nat.add_le_add_iff_right, ← shiftRight_eq_zero_iff, ← shiftRight_eq_zero_iff,
      ← BitVec.shiftRight_add, Nat.add_comm]

/-! ### The passes of the loops -/

theorem loopPasses_eq_bitLength {w : Nat} (fuel : Nat) (x : BitVec w) (h : bitLength x ≤ fuel) :
    loopPasses fuel x = bitLength x := by
  induction fuel generalizing x with
  | zero => exact (Nat.le_zero.mp h).symm
  | succ fuel ih =>
    rw [loopPasses]
    split
    · next hx => rw [hx, bitLength_zero]
    · next hx =>
      have hlen := bitLength_shiftRight_one hx
      rw [ih _ (by omega), hlen]

theorem countLoop_zero (m c : Nat) : countLoop m 0#32 c = c := by
  cases m <;> simp [countLoop]

theorem parityLoop_zero (m : Nat) (p : Bit) : parityLoop m 0#64 p = p := by
  cases m <;> simp [parityLoop]

theorem extractLsb'_shiftRight {w : Nat} (x : BitVec w) (j n : Nat) :
    (x >>> j).extractLsb' 0 n = x.extractLsb' j n := by
  ext i hi
  simp

theorem popcount_bit (b : Bit) : popcount b = b.toNat := by
  revert b
  decide

/-- One pass shifts by one and counts bit 0, also on 0, where no pass is made. -/
theorem countLoop_succ (m : Nat) (x : Word32) (c : Nat) :
    countLoop (m + 1) x c = countLoop m (x >>> (1 : Nat)) (c + popcount (x.extractLsb' 0 1)) := by
  by_cases hx : x = 0#32
  · simp [hx, countLoop_zero]
  · have hbit : (x &&& 1#32).toNat = popcount (x.extractLsb' 0 1) := by
      rw [popcount_bit, BitVec.toNat_and, BitVec.toNat_ofNat, BitVec.extractLsb'_toNat,
        Nat.shiftRight_zero]
      exact Nat.and_one_is_mod x.toNat
    rw [countLoop, if_neg hx, hbit]

/-- One pass shifts by one and adds bit 0, also on 0, where no pass is made. -/
theorem parityLoop_succ (m : Nat) (x : Word64) (p : Bit) :
    parityLoop (m + 1) x p = parityLoop m (x >>> (1 : Nat)) (p ^^^ par (x.extractLsb' 0 1)) := by
  by_cases hx : x = 0#64
  · simp [hx, parityLoop_zero]
  · have hbit : (x &&& 1#64).extractLsb' 0 1 = par (x.extractLsb' 0 1) := by
      rw [par_bit]
      ext i hi
      obtain rfl : i = 0 := by omega
      simp
    rw [parityLoop, if_neg hx, hbit]

/-- The first `j` passes shift by `j` and count the low `j` bits. -/
theorem countLoop_add (j m : Nat) (x : Word32) (c : Nat) :
    countLoop (j + m) x c = countLoop m (x >>> j) (c + popcount (x.extractLsb' 0 j)) := by
  induction j generalizing m with
  | zero => simp [popcount]
  | succ j ih =>
    rw [Nat.add_assoc, Nat.add_comm 1 m, ih, countLoop_succ, ← BitVec.shiftRight_add,
      extractLsb'_shiftRight, popcount_extractLsb'_add, Nat.zero_add, Nat.add_assoc]

/-- The first `j` passes shift by `j` and add the low `j` bits. -/
theorem parityLoop_add (j m : Nat) (x : Word64) (p : Bit) :
    parityLoop (j + m) x p = parityLoop m (x >>> j) (p ^^^ par (x.extractLsb' 0 j)) := by
  induction j generalizing m with
  | zero => simp [par, popcount]
  | succ j ih =>
    rw [Nat.add_assoc, Nat.add_comm 1 m, ih, parityLoop_succ, ← BitVec.shiftRight_add,
      extractLsb'_shiftRight, par_extractLsb'_add, Nat.zero_add, BitVec.xor_assoc]

/-- No pass is made after the value is empty. -/
theorem countLoop_bitLength_add (m : Nat) (x : Word32) (c : Nat) :
    countLoop (bitLength x + m) x c = countLoop (bitLength x) x c := by
  rw [← Nat.add_zero (bitLength x), Nat.add_assoc, countLoop_add, countLoop_add (bitLength x) 0,
    shiftRight_bitLength, countLoop_zero, countLoop_zero]

/-- No pass is made after the value is empty. -/
theorem parityLoop_bitLength_add (m : Nat) (x : Word64) (p : Bit) :
    parityLoop (bitLength x + m) x p = parityLoop (bitLength x) x p := by
  rw [← Nat.add_zero (bitLength x), Nat.add_assoc, parityLoop_add, parityLoop_add (bitLength x) 0,
    shiftRight_bitLength, parityLoop_zero, parityLoop_zero]

/-- Settles O10: `n` is the operand's `bitLength`. -/
theorem loopPassesAreHighestBitIndex : Obligations.LoopPassesAreHighestBitIndex := by
  unfold Obligations.LoopPassesAreHighestBitIndex
  have hfuel {w : Nat} (x : BitVec w) : bitLength x ≤ w + 1 :=
    ((bitLength_le_iff x w).mpr x.isLt).trans (Nat.le_succ w)
  exact
    ⟨fun x => ⟨fun j m c => countLoop_add j m x c, countLoop_zero,
      fun m c => countLoop_bitLength_add m x c, shiftRight_eq_zero_iff x,
      loopPasses_eq_bitLength 33 x (hfuel x)⟩,
    fun x => ⟨fun j m p => parityLoop_add j m x p, parityLoop_zero,
      fun m p => parityLoop_bitLength_add m x p, shiftRight_eq_zero_iff x,
      loopPasses_eq_bitLength 65 x (hfuel x)⟩⟩

/-! ### The table build -/

@[simp] theorem State.memRead_buildAdvance (s : State) (a : Subword) :
    s.buildAdvance.memRead a = s.memRead a :=
  State.memRead_congr (s := s) rfl rfl rfl a

/-- A build step that is enabled sets the entry at the build index to its parity, and leaves every
other entry. -/
theorem State.memRead_buildStep {s : State} (hen : s.buildEnabled = true) (a : Subword) :
    s.buildStep.memRead a = if a.toNat = s.buildIdx.toNat then par a else s.memRead a := by
  obtain ⟨-, hlt⟩ := s.buildEnabled_iff.mp hen
  have haddr : (s.buildIdx.extractLsb' 0 16).toNat = s.buildIdx.toNat := by
    rw [BitVec.extractLsb'_toNat, Nat.shiftRight_zero, Nat.mod_eq_of_lt hlt]
  have hentry : serialParity ((s.buildIdx.extractLsb' 0 16).setWidth 64) =
      par (s.buildIdx.extractLsb' 0 16) := by
    rw [serialParity_eq_par]
    exact par_setWidth_add _ 48
  rw [s.buildStep_of_enabled hen, hentry, State.memRead_buildAdvance, State.memRead_memWrite,
    ← haddr]
  by_cases heq : a = s.buildIdx.extractLsb' 0 16
  · rw [if_pos heq, if_pos (congrArg _ heq), heq]
  · rw [if_neg heq, if_neg (mt BitVec.eq_of_toNat_eq heq)]

theorem State.buildStep_buildIdx_toNat {s : State} (hen : s.buildEnabled = true) :
    s.buildStep.buildIdx.toNat = s.buildIdx.toNat + 1 := by
  obtain ⟨-, hlt⟩ := s.buildEnabled_iff.mp hen
  rw [s.buildStep_of_enabled hen, State.buildAdvance_buildIdx, State.memWrite_buildIdx,
    BitVec.toNat_add, BitVec.toNat_ofNat]
  omega

/-- A build step that is enabled sets `LUT_READY` with the last entry. -/
theorem State.buildStep_lutReady {s : State} (hen : s.buildEnabled = true) :
    s.buildStep.lutReady = if s.buildIdx.toNat + 1 = 65536 then 1#1 else s.lutReady := by
  have hlast : s.buildStep.buildIdx = 65536#17 ↔ s.buildIdx.toNat + 1 = 65536 := by
    rw [← BitVec.toNat_inj, State.buildStep_buildIdx_toNat hen]
    rfl
  simp only [s.buildStep_of_enabled hen, State.buildAdvance_buildIdx, State.buildAdvance_lutReady,
    State.memWrite_buildIdx, State.memWrite_lutReady] at hlast ⊢
  simp only [hlast]

/-- A build step changes nothing but the table, `LUT_READY` and the build index. -/
theorem State.buildStep_frame (s : State) :
    s.buildStep = { s with
      lut := s.buildStep.lut
      lutReady := s.buildStep.lutReady
      buildIdx := s.buildStep.buildIdx } := by
  rcases s.buildStep_cases with ⟨-, h⟩ | ⟨-, h⟩
  · rw [h]
  · rw [h]
    rfl

/-- An operand that is a table address has the parity of that address. -/
theorem par_low_of_lt {x : Word64} (hx : x.toNat < 65536) : par (x.extractLsb' 0 16) = par x := by
  have hwide : (x.extractLsb' 0 16).setWidth (16 + 48) = x := by
    refine BitVec.eq_of_toNat_eq ?_
    rw [BitVec.toNat_setWidth, BitVec.extractLsb'_toNat, Nat.shiftRight_zero]
    omega
  rw [← par_setWidth_add _ 48, hwide]

/-- Settles O31: the step is the build step, whose entry is the parity `PARITY` computes. -/
theorem buildStepWritesOneEntry : Obligations.BuildStepWritesOneEntry := by
  unfold Obligations.BuildStepWritesOneEntry
  refine fun s hm => ⟨fun himpl hlt => ?_, fun hoff => ?_⟩
  · have hen : s.popMove.buildEnabled = true := s.popMove.buildEnabled_iff.mpr ⟨himpl, hlt⟩
    refine ⟨_, step_of_build hm, State.memRead_buildStep hen, fun x u hx he => ?_,
      State.buildStep_buildIdx_toNat hen, State.buildStep_lutReady hen, s.popMove.buildStep_frame⟩
    have hlow : (x.extractLsb' 0 16).toNat = s.popMove.buildIdx.toNat := by
      rw [BitVec.extractLsb'_toNat, Nat.shiftRight_zero, hx, Nat.mod_eq_of_lt hlt]
      rfl
    cases (exec_parity_eq_par x s).symm.trans he
    rw [State.complete_result, State.memRead_buildStep hen, if_pos hlow, par_low_of_lt (hx ▸ hlt)]
  · have hdis : s.popMove.buildEnabled = false := by
      rw [← Bool.not_eq_true, State.buildEnabled_iff]
      rintro ⟨himpl, hlt⟩
      rcases hoff with hrom | hdone
      · exact absurd (hrom.symm.trans himpl) (by decide)
      · exact absurd hlt hdone.not_gt
    rw [step_of_build hm, State.buildStep_of_not_enabled _ hdis, State.popMove]

/-! ### The whole build -/

/-- The build has written the first `k` entries and no more (R79). -/
structure BuiltUpTo (k : Nat) (s : State) : Prop where
  lutImpl : s.lutImpl = .builtAtReset
  buildIdx : s.buildIdx.toNat = k
  lutReady : s.lutReady = if k = 65536 then 1#1 else 0#1
  entries : ∀ a : Subword, a.toNat < k → s.memRead a = par a

theorem BuiltUpTo.buildStep {k : Nat} {s : State} (h : BuiltUpTo k s) (hk : k < 65536) :
    BuiltUpTo (k + 1) s.buildStep := by
  obtain ⟨himpl, rfl, hready, hentries⟩ := h
  have hen := s.buildEnabled_iff.mpr ⟨himpl, hk⟩
  refine ⟨s.buildStep_lutImpl.trans himpl, State.buildStep_buildIdx_toNat hen, ?_, fun a ha => ?_⟩
  · rw [State.buildStep_lutReady hen, hready, if_neg hk.ne]
  · rw [State.memRead_buildStep hen]
    split
    · rfl
    · exact hentries a (by omega)

theorem BuiltUpTo.buildSteps {j k : Nat} {s : State} (h : BuiltUpTo k s) (hj : k + j ≤ 65536) :
    BuiltUpTo (k + j) (s.buildSteps j) := by
  induction j generalizing k s with
  | zero => exact h
  | succ j ih =>
    rw [State.buildSteps, ← Nat.add_assoc, Nat.add_right_comm]
    exact ih (h.buildStep (by omega)) (by omega)

/-- Settles O32: after `k` steps the first `k` entries are built. -/
theorem buildEndsAfterAllEntries : Obligations.BuildEndsAfterAllEntries := by
  unfold Obligations.BuildEndsAfterAllEntries
  intro s himpl hidx hready
  have hstart : BuiltUpTo 0 s := 
    ⟨himpl, by rw [hidx]; rfl, hready, fun a ha => absurd ha a.toNat.not_lt_zero⟩
  have hbuilt (k : Nat) (hk : k ≤ 65536) : BuiltUpTo k (s.buildSteps k) := by
    simpa only [Nat.zero_add] using hstart.buildSteps (j := k) (by omega)
  have hdone := hbuilt 65536 le_rfl
  refine ⟨fun k hk => ?_, hdone.lutReady, BitVec.eq_of_toNat_eq hdone.buildIdx,
    fun a => hdone.entries a a.isLt⟩
  rw [(hbuilt k hk.le).lutReady, if_neg hk.ne]

/-! ### Commands that do not read the table -/

/-- The state with another parameter, table, `LUT_READY`, build index and draw. -/
def State.withLut (impl : LutImpl) (m : Memory) (ready : Bit) (idx : BuildIdx) (draw : Nat)
    (s : State) : State :=
  { s with lutImpl := impl, lut := m, lutReady := ready, buildIdx := idx, lutDraw := draw }

theorem State.complete_withLut (impl : LutImpl) (m : Memory) (ready : Bit) (idx : BuildIdx)
    (draw : Nat) (s : State) (v : Byte) :
    (s.withLut impl m ready idx draw).complete v =
      (s.complete v).withLut impl m ready idx draw := by
  cases h : s.pending <;> simp [State.complete, State.respond, State.setResult, State.withLut, h]

/-- A command but `PARITY.CACHED` is never held, and its value is its operand's alone. -/
theorem exec_withLut {i : Instr} (hop : i.op ≠ .parityCached) (impl : LutImpl) (m : Memory)
    (ready : Bit) (idx : BuildIdx) (draw : Nat) (s : State) :
    ∃ t, exec i s = .next t ∧
      exec i (s.withLut impl m ready idx draw) = .next (t.withLut impl m ready idx draw) := by
  have hsame (u : State) : u.holds i = false ∧ u.commandValue i = s.commandValue i := by
    cases i with
    | parityCached x => exact absurd rfl hop
    | countbits x | parity x | parityXorfold x => exact ⟨rfl, rfl⟩
  obtain ⟨hheld, hvalue⟩ := hsame (s.withLut impl m ready idx draw)
  refine ⟨_, exec_of_not_held (hsame s).1, ?_⟩
  rw [exec_of_not_held hheld, hvalue, State.complete_withLut]

/-- Settles O33: `exec_withLut` states it through `State.withLut`. -/
theorem otherCommandsIgnoreTheTable : Obligations.OtherCommandsIgnoreTheTable := by
  unfold Obligations.OtherCommandsIgnoreTheTable
  exact fun i s impl m ready idx draw hop => exec_withLut hop impl m ready idx draw s

/-! ### Reset -/

theorem State.applyReset_of_rom {s : State} (hrom : s.lutImpl = .rom) :
    s.applyReset.lutReady = 1#1 ∧ s.applyReset.buildIdx = 65536#17 ∧ s.applyReset.lut = s.lut := by
  simp [State.applyReset, State.resetEngine, hrom]

theorem State.applyReset_of_builtAtReset {s : State} (hbuilt : s.lutImpl = .builtAtReset) :
    s.applyReset.lutReady = 0#1 ∧ s.applyReset.buildIdx = 0#17 ∧ s.applyReset.lut = [] := by
  simp [State.applyReset, State.resetEngine, hbuilt]

/-- An entry of a built table of which nothing is listed reads as the free value (R13). -/
theorem State.memRead_of_unbuilt {s : State} (hbuilt : s.lutImpl = .builtAtReset)
    (hlut : s.lut = []) (a : Subword) : s.memRead a = Config.freeLutEntry s.lutDraw a.toNat := by
  simp [State.memRead, hbuilt, hlut, Memory.read, Memory.unlisted]

/-- Settles O37: `State.applyReset_hosts` has each host's list. -/
theorem resetDiscardsPendingCommands : Obligations.ResetDiscardsPendingCommands := by
  unfold Obligations.ResetDiscardsPendingCommands
  refine fun s hm => ⟨_, step_of_reset hm, State.applyReset_pending _, State.applyReset_responses _,
    ?_, fun h p hp => ?_⟩ <;> rw [State.applyReset_hosts]
  · exact List.length_mapIdx
  · rw [List.getElem?_mapIdx, State.popMove_hosts, hp]
    rfl

/-- Settles O36: reset's values for each `LUT_IMPL`. -/
theorem resetSetsResetValues : Obligations.ResetSetsResetValues := by
  unfold Obligations.ResetSetsResetValues
  refine fun s hm => ⟨_, step_of_reset hm, State.applyReset_result _,
    State.applyReset_resultValid _, State.applyReset_of_rom (s := s.popMove), fun hbuilt => ?_⟩
  obtain ⟨hready, hidx, hlut⟩ := State.applyReset_of_builtAtReset (s := s.popMove) hbuilt
  exact ⟨hready, hidx, State.memRead_of_unbuilt (s.popMove.applyReset_lutImpl.trans hbuilt) hlut⟩

theorem State.hostReissue_of_some {s : State} {h : Nat} {p : HostPort} {w : CmdWord}
    {rest : List CmdWord} (hp : s.hosts[h]? = some p) (hd : p.discarded = w :: rest) :
    s.hostReissue h = (s.enqueue h w).setHost h { p with discarded := rest } := by
  simp [State.hostReissue, hp, hd]

/-- Settles O44: the host exists and has a discarded command. -/
theorem hostReissuesDiscardedCommand : Obligations.HostReissuesDiscardedCommand := by
  unfold Obligations.HostReissuesDiscardedCommand
  intro s h p w rest hm hp hd
  rw [step_of_reissue hm, State.hostReissue_of_some (s := s.popMove) hp hd]
  rfl

/-! ### The end of a program -/

/-- A host whose completed commands are its whole program has none pending and none discarded. -/
theorem HostInv.none_left_of_cpos_eq_length {s : State} {h : Nat} {p : HostPort} (hs : HostInv s)
    (hp : s.hosts[h]? = some p) (hend : p.cpos = p.program.length) :
    s.inflight h = 0 ∧ p.discarded = [] := by
  have hissued := hs.accounted h p hp
  have hle := hs.issued_le h p hp
  exact ⟨by omega, List.length_eq_zero_iff.mp (by omega)⟩

/-- Settles O45: the host's account leaves nothing pending or discarded. -/
theorem cposAtLengthMeansProgramEnded : Obligations.CposAtLengthMeansProgramEnded := by
  unfold Obligations.CposAtLengthMeansProgramEnded
  refine fun s h p hs hp => ⟨⟨fun hend => ?_, ?_⟩, fun hend => ?_⟩
  · exact ⟨p, hp, hend, (hs.none_left_of_cpos_eq_length hp hend).1⟩
  · rintro ⟨q, hq, hend, -⟩
    cases hp.symm.trans hq
    exact hend
  · obtain ⟨hinflight, hdiscarded⟩ := hs.none_left_of_cpos_eq_length hp hend
    exact ⟨(hs.responded h p hp).trans hend, hdiscarded, List.length_eq_zero_iff.mp hinflight⟩

end Sys2Proof.Machine
